-- ==== Sys2Proof/Word.lean ====
section
/-! DEFINITION. The words of the FXU (spec/00_scope.md R11, R12; spec/30_encoding.md R80). Inside the unit there are
no bytes, only words (spec/20_memory.md R61). -/

namespace Sys2Proof

/-- A 32-bit command word, bit 0 least significant (R11, R80). -/
abbrev CmdWord := BitVec 32

/-- A 64-bit operand or result word (R80, R35). -/
abbrev DataWord := BitVec 64

/-- `word_N(v)`: the N-bit word of the integer `v` modulo `2^N` (R12). -/
abbrev word (n : Nat) (v : Int) : BitVec n := BitVec.ofInt n v

/-- `sint_N(w)`: the signed two's-complement value of the word `w` (R12). -/
abbrev sint {n : Nat} (w : BitVec n) : Int := w.toInt

/-- A command is the pair `(CMD, OPND)` that one transfer moves (R80, R62). -/
structure Command where
  cmd  : CmdWord
  opnd : DataWord
deriving DecidableEq, Repr

end Sys2Proof
end

