-- ==== Sys2Proof/Syntax.lean ====
section
/-! DEFINITION. The 19 commands of the FXU, one constructor per row of spec/opcode_table.json
(spec/30_encoding.md R82). A command is the pair (CMD, OPND) (R80), so every constructor carries the operand word
that was transferred with it: a command of operand form Q or F64 reads it (R83, R84); a command of form "none" does
not read it, but a fault records it in FOPND (R85). -/

namespace Sys2Proof

/-- The commands of R82, in the order of the opcode map; `opnd` is the 64-bit operand word OPND. -/
inductive Instr where
  /-- NOP, OP 0x00, operand form none (R100). -/
  | nop (opnd : DataWord)
  /-- LDQ, OP 0x10, operand form Q (R101). -/
  | ldq (opnd : DataWord)
  /-- LDF, OP 0x11, operand form F64 (R102). -/
  | ldf (opnd : DataWord)
  /-- TOINT, OP 0x12, operand form none (R103). -/
  | toint (opnd : DataWord)
  /-- TOF, OP 0x13, operand form none (R104). -/
  | tof (opnd : DataWord)
  /-- POS, OP 0x20, operand form none (R130). -/
  | pos (opnd : DataWord)
  /-- NEG, OP 0x21, operand form none (R131). -/
  | neg (opnd : DataWord)
  /-- ABS, OP 0x22, operand form none (R136). -/
  | abs (opnd : DataWord)
  /-- ADD, OP 0x28, operand form Q (R132). -/
  | add (opnd : DataWord)
  /-- SUB, OP 0x29, operand form Q (R133). -/
  | sub (opnd : DataWord)
  /-- MUL, OP 0x2A, operand form Q (R134). -/
  | mul (opnd : DataWord)
  /-- DIV, OP 0x2B, operand form Q (R135). -/
  | div (opnd : DataWord)
  /-- INC, OP 0x30, operand form none (R160). -/
  | inc (opnd : DataWord)
  /-- DEC, OP 0x31, operand form none (R161). -/
  | dec (opnd : DataWord)
  /-- INCP, OP 0x32, operand form none (R162). -/
  | incp (opnd : DataWord)
  /-- DECP, OP 0x33, operand form none (R163). -/
  | decp (opnd : DataWord)
  /-- CMP, OP 0x38, operand form Q (R164). -/
  | cmp (opnd : DataWord)
  /-- SIN, OP 0x40, operand form none (R183). -/
  | sin (opnd : DataWord)
  /-- COS, OP 0x41, operand form none (R184). -/
  | cos (opnd : DataWord)
deriving DecidableEq, Repr

end Sys2Proof
end

