-- ==== Sys2Proof/Decode.lean ====
section
/-! DEFINITION. Decoding and encoding of command words (spec/30_encoding.md R80 to R89). -/

namespace Sys2Proof

/-- Why a command word is illegal (R86). -/
inductive Illegal where
  /-- `CMD[31:8] != 0`. -/
  | reservedBits
  /-- `CMD[31:8] = 0` and `CMD[7:0]` is not an opcode of R82. -/
  | unassignedOpcode
deriving DecidableEq, Repr

/-- The field OP of a command word, bits 7:0 (R80). -/
def opField (cmd : CmdWord) : BitVec 8 := cmd.extractLsb' 0 8

/-- The field RSV of a command word, bits 31:8 (R80). -/
def rsvField (cmd : CmdWord) : BitVec 24 := cmd.extractLsb' 8 24

/-- The decoding procedure of R89, total on every 32-bit command word; OPND goes with the command unread. -/
def decode (c : Command) : Except Illegal Instr :=
  if rsvField c.cmd ≠ 0 then .error .reservedBits
  else match (opField c.cmd).toNat with
    | 0x00 => .ok (.nop c.opnd)
    | 0x10 => .ok (.ldq c.opnd)
    | 0x11 => .ok (.ldf c.opnd)
    | 0x12 => .ok (.toint c.opnd)
    | 0x13 => .ok (.tof c.opnd)
    | 0x20 => .ok (.pos c.opnd)
    | 0x21 => .ok (.neg c.opnd)
    | 0x22 => .ok (.abs c.opnd)
    | 0x28 => .ok (.add c.opnd)
    | 0x29 => .ok (.sub c.opnd)
    | 0x2A => .ok (.mul c.opnd)
    | 0x2B => .ok (.div c.opnd)
    | 0x30 => .ok (.inc c.opnd)
    | 0x31 => .ok (.dec c.opnd)
    | 0x32 => .ok (.incp c.opnd)
    | 0x33 => .ok (.decp c.opnd)
    | 0x38 => .ok (.cmp c.opnd)
    | 0x40 => .ok (.sin c.opnd)
    | 0x41 => .ok (.cos c.opnd)
    | _    => .error .unassignedOpcode

/-- The opcode byte of each command (R82). -/
def Instr.opcode : Instr → BitVec 8
  | .nop _ => 0x00
  | .ldq _ => 0x10
  | .ldf _ => 0x11
  | .toint _ => 0x12
  | .tof _ => 0x13
  | .pos _ => 0x20
  | .neg _ => 0x21
  | .abs _ => 0x22
  | .add _ => 0x28
  | .sub _ => 0x29
  | .mul _ => 0x2A
  | .div _ => 0x2B
  | .inc _ => 0x30
  | .dec _ => 0x31
  | .incp _ => 0x32
  | .decp _ => 0x33
  | .cmp _ => 0x38
  | .sin _ => 0x40
  | .cos _ => 0x41

/-- The operand word that was transferred with a command (R80). -/
def Instr.operand : Instr → DataWord
  | .nop o | .ldq o | .ldf o | .toint o | .tof o | .pos o | .neg o | .abs o | .add o | .sub o
  | .mul o | .div o | .inc o | .dec o | .incp o | .decp o | .cmp o | .sin o | .cos o => o

/-- The command pair of an instruction: "The full command word of each is `zext_32(OP)`" (R82). -/
def encode (i : Instr) : Command := { cmd := i.opcode.zeroExtend 32, opnd := i.operand }

/-- The operand forms of R82's column "operand". -/
inductive OperandForm where
  | none | q | f64
deriving DecidableEq, Repr

/-- The operand form of each command (R82, R83 to R85). -/
def Instr.form : Instr → OperandForm
  | .ldq _ | .add _ | .sub _ | .mul _ | .div _ | .cmp _ => .q
  | .ldf _ => .f64
  | .nop _ | .toint _ | .tof _ | .pos _ | .neg _ | .abs _ | .inc _ | .dec _ | .incp _ | .decp _
  | .sin _ | .cos _ => .none

/-- The command pair whose bits, counted from bit 0 of the command word on, are the low `nbits` bits of `w`: the
command word is bits 31:0 and the operand word bits 95:32, and the bits above `nbits` are 0 (log 10). -/
def tableCommand (nbits w : Nat) : Command :=
  let v := w % 2 ^ nbits
  { cmd := BitVec.ofNat 32 v, opnd := BitVec.ofNat 64 (v / 2 ^ 32) }

/-- The instruction the decoder reads from the bits `w` of a row of spec/opcode_table.json. -/
def decodeTableWord (nbits w : Nat) : Option Instr :=
  match decode (tableCommand nbits w) with
  | .ok i => some i
  | .error _ => none

end Sys2Proof
end

