-- ==== Sys2Proof/WellFormed.lean ====
section
/-! DEFINITION. Well-formedness. An instruction of the FXU needs no check: each of the 19 commands accepts every
64-bit operand word (spec/30_encoding.md R83 to R85), so every term of `Instr` is well formed. What can be ill
formed is the configuration (spec/00_scope.md R5, R8) and the integer of an assembler's Q literal
(spec/30_encoding.md R91). -/

namespace Sys2Proof

/-- The configurations the spec admits: `D >= 1`, `F >= 1`, `D + F <= 32` (R5). An out-of-range pair does not
elaborate (R8): `Config` carries the proof of this check. -/
def paramsOk (d f : Nat) : Bool :=
  decide (1 ≤ d) && decide (1 ≤ f) && decide (d + f ≤ 32)

/-- A Q literal `q:n` of a W-bit unit lies in `[-2^(W-1), 2^(W-1)-1]` (R91). -/
def qLiteralOk (w : Nat) (n : Int) : Bool :=
  decide (-(2 ^ (w - 1) : Int) ≤ n) && decide (n ≤ 2 ^ (w - 1) - 1)

end Sys2Proof
end

