-- ==== Sys2Proof/Config.lean ====
section
/-! DEFINITION. What an implementation fixes: the elaboration parameters D and F (spec/00_scope.md R5 to R8) and the
open latency table LAT (R10); and the free values of the model. -/

namespace Sys2Proof

/-- `resolve(bits)`: the smallest storage width of 8, 16, 32, 64 that is at least `bits` (R6). It is applied to at
most 64 bits here (R5, R7). -/
def resolve (bits : Nat) : Nat :=
  if bits ≤ 8 then 8 else if bits ≤ 16 then 16 else if bits ≤ 32 then 32 else 64

/-- The parameters of one FXU, fixed for the life of the hardware (R5). `ok` is R5 itself: a pair out of range has no
`Config`, as R8 asks of the hardware description. `lat` is the open parameter LAT (R10): entry `n` is `LAT(n) - 1`
for the commands whose opcode byte is `n`, and an absent entry is 0, so that `LAT >= 1` holds for every table.
DESIGN CHOICE (log 2), safe: every table is allowed. -/
structure Config where
  D   : Nat
  F   : Nat
  lat : List Nat := []
  ok  : paramsOk D F = true := by decide
deriving DecidableEq, Repr

/-- The storage width `W = resolve(D + F)` (R6). -/
def Config.W (c : Config) : Nat := resolve (c.D + c.F)

/-- The width of the multiply and divide datapath, `WS = 2 * W` (R7). -/
def Config.WS (c : Config) : Nat := 2 * c.W

/-- The source's scratch width `W2 = resolve(2 * (D + F))` (R7). -/
def Config.W2 (c : Config) : Nat := resolve (2 * (c.D + c.F))

/-- The reference configuration FXU-D16F16 of the source's tests (R2, R15). -/
def Config.d16f16 : Config := { D := 16, F := 16 }

/-- The free values of the sine and cosine temporaries between commands (spec/10_state.md R42,
spec/93_implementation_defined.md U14): temporary number `k`, `w` bits wide, after the `n`-th run of the engine.
It has no body: nothing can be proved of a value of it (log 7). -/
opaque Config.freeTemp (w n k : Nat) : BitVec w

/-- The free pace of the sine and cosine engine: how many steps of its `n`-th run it performs at the edge that leaves
`left` edges before the completion edge (spec/43_trig.md R182 gives the order of the steps, no rule their edges).
It has no body (log 17). -/
opaque Config.freePace (n left : Nat) : Nat

end Sys2Proof
end

