-- ==== Sys2Proof/Machine/State.lean ====
section
/-! DEFINITION. The state of the FXU as plain data (spec/10_state.md), its reset (R45), and the reasons a step of the
model can stop without a next state: none but the fixed refusal. -/

namespace Sys2Proof.Machine

/-- The cause codes 0 to 4 of spec/60_exceptions.md R200; codes 5 to 15 are never produced and have no value here
(spec/93_implementation_defined.md U9). -/
inductive Cause where
  | none | illegalCmd | divZero | cvtRange | unsupported
deriving DecidableEq, Repr

/-- The stored fields of STATUS (R36). BUSY is not stored: it is 1 iff SEQ = BUSY. The reserved bits read as 0 (U8)
and stand in the port word only. -/
structure Status where
  eq    : Bool
  lt    : Bool
  gt    : Bool
  fault : Bool
  cause : Cause
deriving DecidableEq, Repr

/-- The sequencer state SEQ (R42). While BUSY it holds the command in flight and how many edges are still to pass
before its completion edge. -/
inductive Seq where
  | idle
  | busy (inFlight : Command) (left : Nat)
  | faulted
deriving DecidableEq, Repr

/-- The internal temporaries of the sine and cosine engine, `w` bits each (R42, R182), and how many steps of the
order of R183 or R184 the command in flight has performed (`pos`, the engine's own place in its fixed sequence, R32).
DESIGN CHOICE (log 18), safe: R42 speaks of "up to seven W-bit words" and R182 names eight, p1 to p7 and s; the model
holds the eight, p1 being a copy of the argument in ACC. -/
structure TrigTemps (w : Nat) where
  p1  : BitVec w
  p2  : BitVec w
  p3  : BitVec w
  p4  : BitVec w
  p5  : BitVec w
  p6  : BitVec w
  p7  : BitVec w
  s   : BitVec w
  pos : Nat
deriving DecidableEq, Repr

/-- The machine. `rst` and `offers` are the host's inputs at the coming rising edges (R30, R214; log 4): `rst` lists
the levels it will drive, 0 when the list is at its end; `offers` lists what it will offer, `some c` an offer that is
held until it is accepted, `none` one edge with `cmd_valid = 0`. `freeCount` is the model's own (log 9). -/
structure State where
  config    : Config
  acc       : BitVec config.W
  res       : DataWord
  status    : Status
  fcmd      : CmdWord
  fopnd     : DataWord
  seq       : Seq
  temps     : TrigTemps config.W
  freeCount : Nat
  rst       : List Bool
  offers    : List (Option Command)
deriving DecidableEq, Repr

/-- The reasons a step stops with a fault of the model: none. Every fault of the spec is taken as a next state
(spec/60_exceptions.md R206), and no other event stops the unit (spec/70_reset_and_hazards.md R237; log 16). Raised by
nobody; safe. -/
inductive Fault
deriving DecidableEq, Repr

/-- The reasons the model refuses an instruction. -/
inductive Refusal where
  /-- An instruction without a meaning yet, raised by an arm of `exec` only; safe (the model stops where the hardware
  goes on). No arm raises it now. -/
  | notModelled (mnemonic : String)
deriving DecidableEq, Repr

/-- STATUS = 0 (R45). -/
def Status.zero : Status :=
  { eq := false, lt := false, gt := false, fault := false, cause := .none }

/-- The temporaries at reset. The spec leaves them unspecified and no rule reads them (R42, R45).
DESIGN CHOICE (log 8), unsafe: all 0. -/
def TrigTemps.zero (w : Nat) : TrigTemps w :=
  { p1 := 0, p2 := 0, p3 := 0, p4 := 0, p5 := 0, p6 := 0, p7 := 0, s := 0, pos := 0 }

/-- The reset state of the unit of configuration `c` (R45), with a host that drives nothing. The state before the
first reset is not modelled (R231; log 12). -/
def State.resetOf (c : Config) : State :=
  { config := c
    acc := 0
    res := 0
    status := Status.zero
    fcmd := 0
    fopnd := 0
    seq := .idle
    temps := TrigTemps.zero c.W
    freeCount := 0
    rst := []
    offers := [] }

/-- The machine right after reset, in the reference configuration FXU-D16F16 (R2, R45).
DESIGN CHOICE (log 1): the spec fixes no configuration; `State.resetOf` is the reset state of each. -/
def State.reset : State := State.resetOf Config.d16f16

end Sys2Proof.Machine
end

