-- ==== Sys2Proof/Machine/Ops.lean ====
section
/-! DEFINITION. The named operations every meaning is built from: the integer helpers of spec/00_scope.md R12, the
register writes of R13, the completion of a command (spec/10_state.md R42) and fault entry
(spec/60_exceptions.md R206), and beside it the only way out of a fault, reset (R208, R230). -/

namespace Sys2Proof.Machine

/-- `floor_div(a, b)`: the greatest integer at most `a / b` (R12). -/
def floorDiv (a b : Int) : Int := Int.fdiv a b

/-- `trunc_div(a, b)`: `a / b` rounded toward zero, for `b != 0` (R12). -/
def truncDiv (a b : Int) : Int := Int.tdiv a b

/-- `a >>> s = floor_div(a, 2^s)`: the arithmetic right shift (R12). -/
def asr (a : Int) (s : Nat) : Int := floorDiv a (2 ^ s)

/-- `wrap_N(v)`: the integer congruent to `v` modulo `2^N` in `[-2^(N-1), 2^(N-1))` (R12). -/
def wrap (n : Nat) (v : Int) : Int := sint (word n v)

/-- `sext_64(v)` (R11). -/
def sext64 {n : Nat} (v : BitVec n) : DataWord := v.signExtend 64

/-- One unit: the scaled integer `2^F` of the value 1.0 (R9; `U` in spec/42_incdec_compare.md). -/
def oneUnit (c : Config) : Int := 2 ^ c.F

/-- `A = sint_W(ACC)` (R13). -/
def State.A (s : State) : Int := sint s.acc

/-- `RES <- r`. -/
def State.setRes (s : State) (r : DataWord) : State := { s with res := r }

/-- `ACC <- v` and `RES <- r` (R13). -/
def State.setAccRes (s : State) (v : BitVec s.config.W) (r : DataWord) : State :=
  { s with acc := v, res := r }

/-- `ACC <- v` and `RES <- sext_64(ACC')`: what every command that "writes ACC new" does but the postfix forms
(R44). -/
def State.setAcc (s : State) (v : BitVec s.config.W) : State := s.setAccRes v (sext64 v)

/-- The three comparison flags are written and nothing else of STATUS (R40). -/
def State.setFlags (s : State) (eq lt gt : Bool) : State :=
  { s with status := { s.status with eq := eq, lt := lt, gt := gt } }

/-- The completion edge of a command that did not fault: SEQ becomes IDLE (R42). -/
def State.complete (s : State) : State := { s with seq := .idle }

/-- Fault entry (R206): FAULT, CAUSE, FCMD, FOPND and SEQ are written "and nothing else". -/
def State.raiseFault (s : State) (k : Cause) (c : Command) : State :=
  { s with
    status := { s.status with fault := true, cause := k }
    fcmd := c.cmd
    fopnd := c.opnd
    seq := .faulted }

/-- The unit at a rising edge with `rst = 1` (R230): every register takes its reset value (R45), CONFIG is unchanged
and a command in flight is gone. The host's inputs are not the unit's; the model's counter of free values goes on, so
that an abandoned run of the engine and the next one share none (log 9). -/
def State.resetEdge (s : State) : State :=
  { State.resetOf s.config with freeCount := s.freeCount + 1, rst := s.rst, offers := s.offers }

/-- The temporaries after a run of the sine and cosine engine: free values (R42, U14; log 7). -/
def State.discardTemps (s : State) : State :=
  { s with
    temps :=
      { p1 := Config.freeTemp _ s.freeCount 1
        p2 := Config.freeTemp _ s.freeCount 2
        p3 := Config.freeTemp _ s.freeCount 3
        p4 := Config.freeTemp _ s.freeCount 4
        p5 := Config.freeTemp _ s.freeCount 5
        p6 := Config.freeTemp _ s.freeCount 6
        p7 := Config.freeTemp _ s.freeCount 7
        s := Config.freeTemp _ s.freeCount 8
        pos := 0 }
    freeCount := s.freeCount + 1 }

end Sys2Proof.Machine
end

