-- ==== Sys2Proof/Machine/Float.lean ====
section
/-! DEFINITION. IEEE 754 binary64 words (spec/00_scope.md R14): `f64_value`, `f64_bits`, and the scaled truncation
of spec/40_construct_extract.md R102. -/

namespace Sys2Proof.Machine

/-- What a binary64 word encodes (R14; log 15); `finite neg m e` is the real number `(-1)^neg * m * 2^e`. -/
inductive F64 where
  | nan
  | inf (neg : Bool)
  | finite (neg : Bool) (m : Nat) (e : Int)
deriving DecidableEq, Repr

/-- Bit 63, the sign (R14). -/
def f64Sign (x : DataWord) : Bool := x.getLsbD 63

/-- Bits 62:52, the biased exponent (R14). -/
def f64Exp (x : DataWord) : Nat := (x.extractLsb' 52 11).toNat

/-- Bits 51:0, the fraction (R14). -/
def f64Frac (x : DataWord) : Nat := (x.extractLsb' 0 52).toNat

/-- `f64_value(X)` (R14): exponent all ones is an infinity (fraction 0) or NaN, exponent 0 is zero or a subnormal,
any other exponent `e` is the normal number `(2^52 + fraction) * 2^(e - 1023 - 52)`. -/
def f64Value (x : DataWord) : F64 :=
  if f64Exp x = 2047 then
    if f64Frac x = 0 then .inf (f64Sign x) else .nan
  else if f64Exp x = 0 then .finite (f64Sign x) (f64Frac x) (-1074)
  else .finite (f64Sign x) (2 ^ 52 + f64Frac x) (f64Exp x - 1075)

/-- The real number a binary64 value stands for, none for NaN and the infinities (R14). -/
def F64.real : F64 → Option ℚ
  | .nan => none
  | .inf _ => none
  | .finite neg m e => some ((if neg then -1 else 1) * (m : ℚ) * (2 : ℚ) ^ e)

/-- `trunc((-1)^neg * m * 2^e)`: the magnitude rounded down (a right shift where `e` is negative), so the value toward
zero, with the product exact (R102). -/
def truncScaled (neg : Bool) (m : Nat) (e : Int) : Int :=
  let mag : Nat := match e with
    | .ofNat n => m * 2 ^ n
    | .negSucc n => m >>> (n + 1)
  if neg then -(mag : Int) else mag

/-- The value `v = trunc(x * 2^F)` of R102, or none where LDF raises CVT_RANGE: NaN, an infinity, or `v` outside the
W-bit range (R203). -/
def ldfScaled (c : Config) (x : DataWord) : Option Int :=
  match f64Value x with
  | .nan => none
  | .inf _ => none
  | .finite neg m e =>
    let v := truncScaled neg m (e + c.F)
    if v < -2 ^ (c.W - 1) ∨ v > 2 ^ (c.W - 1) - 1 then none else some v

/-- `f64_bits(n / 2^f)` for `|n| < 2^53` (R14, R104): sign, biased exponent `floor(log2 |n|) - f + 1023`, and the 52
bits under the leading one; `+0.0` for `n = 0`. With `f <= 31` the result is a normal number, so it is exact. -/
def f64Bits (n : Int) (f : Nat) : DataWord :=
  let m := n.natAbs
  let l := Nat.log2 m
  if m = 0 then 0
  else
    BitVec.ofBool (decide (n < 0)) ++ BitVec.ofNat 11 (l + 1023 - f) ++ BitVec.ofNat 52 ((m - 2 ^ l) * 2 ^ (52 - l))

end Sys2Proof.Machine
end

