-- ==== Sys2Proof/Machine/Operands.lean ====
section
/-! DEFINITION. Operand assembly (spec/30_encoding.md R83 to R85) and the unit's own functions on scaled words: the
values the arithmetic commands write to ACC, each stated once for its command and for the sine and cosine engine
(spec/43_trig.md R180). -/

namespace Sys2Proof.Machine

/-- Operand form Q: the low W bits of OPND; the bits above are ignored (R83). `B = sint (operandQ c opnd)`. -/
def operandQ (c : Config) (opnd : DataWord) : BitVec c.W := opnd.setWidth c.W

/-- `add_f`: the value of ADD (R132). -/
def addF (c : Config) (a b : BitVec c.W) : BitVec c.W := word c.W (sint a + sint b)

/-- `sub_f`: the value of SUB (R133). -/
def subF (c : Config) (a b : BitVec c.W) : BitVec c.W := word c.W (sint a - sint b)

/-- `S = (A * B) >>> F` before narrowing: the exact product, arithmetically shifted (R134). -/
def mulExact (c : Config) (a b : Int) : Int := asr (a * b) c.F

/-- `mul_f`: the value of MUL, the low W bits of `S` (R134). -/
def mulF (c : Config) (a b : BitVec c.W) : BitVec c.W := word c.W (mulExact c (sint a) (sint b))

/-- The quotient `Q` of R135 before narrowing, for `b != 0`: the dividend is pre-scaled, moved by the signed half of
the divisor, and divided with truncation. -/
def divExact (c : Config) (a b : Int) : Int :=
  let t := a * 2 ^ c.F
  let h := truncDiv b 2
  let t' := if (t ≥ 0 ∧ b ≥ 0) ∨ (t < 0 ∧ b < 0) then t + h else t - h
  truncDiv t' b

/-- `div_f`: the value of DIV for a non-zero divisor, the low W bits of `Q` (R135). The unit never divides by zero:
DIV faults first (R202) and the engine's divisors are non-zero constants (R182; log 14). -/
def divF (c : Config) (a b : BitVec c.W) : BitVec c.W := word c.W (divExact c (sint a) (sint b))

/-- The value of NEG: `word_W(-A)` (R131). -/
def negF (c : Config) (a : BitVec c.W) : BitVec c.W := word c.W (-sint a)

/-- The value of ABS (R136). -/
def absF (c : Config) (a : BitVec c.W) : BitVec c.W := if sint a ≥ 0 then word c.W (sint a) else negF c a

/-- The value of INC and INCP in ACC: `word_W(A + 2^F)` (R160, R162). -/
def incF (c : Config) (a : BitVec c.W) : BitVec c.W := word c.W (sint a + oneUnit c)

/-- The value of DEC and DECP in ACC: `word_W(A - 2^F)` (R161, R163). -/
def decF (c : Config) (a : BitVec c.W) : BitVec c.W := word c.W (sint a - oneUnit c)

/-- The real number a scaled word stands for: `q / 2^F` (R9). -/
def scaledValue (c : Config) (q : BitVec c.W) : ℚ := (sint q : ℚ) / 2 ^ c.F

end Sys2Proof.Machine
end

