-- ==== Sys2Proof/Machine/Arithmetic.lean ====
section
/-! DEFINITION. Unary and binary arithmetic: POS, NEG, ABS, ADD, SUB, MUL, DIV (spec/41_arithmetic.md R130 to
R136). -/

namespace Sys2Proof.Machine

/-- POS: `RES <- sext_64(ACC)` (R130). -/
def execPos (_opnd : DataWord) (s : State) : Host.Outcome State Fault Refusal :=
  .next (s.setRes (sext64 s.acc)).complete

/-- NEG: `ACC <- word_W(-A)` (R131). -/
def execNeg (_opnd : DataWord) (s : State) : Host.Outcome State Fault Refusal :=
  .next (s.setAcc (negF s.config s.acc)).complete

/-- ABS (R136). -/
def execAbs (_opnd : DataWord) (s : State) : Host.Outcome State Fault Refusal :=
  .next (s.setAcc (absF s.config s.acc)).complete

/-- ADD: `ACC <- word_W(A + B)` (R132). -/
def execAdd (opnd : DataWord) (s : State) : Host.Outcome State Fault Refusal :=
  .next (s.setAcc (addF s.config s.acc (operandQ s.config opnd))).complete

/-- SUB: `ACC <- word_W(A - B)` (R133). -/
def execSub (opnd : DataWord) (s : State) : Host.Outcome State Fault Refusal :=
  .next (s.setAcc (subF s.config s.acc (operandQ s.config opnd))).complete

/-- MUL: `ACC <- word_W((A * B) >>> F)` (R134). -/
def execMul (opnd : DataWord) (s : State) : Host.Outcome State Fault Refusal :=
  .next (s.setAcc (mulF s.config s.acc (operandQ s.config opnd))).complete

/-- DIV: the rounded quotient, or the fault DIV_ZERO when `B = 0` (R135, R202). -/
def execDiv (opnd : DataWord) (s : State) : Host.Outcome State Fault Refusal :=
  if sint (operandQ s.config opnd) = 0 then .next (s.raiseFault .divZero (encode (.div opnd)))
  else .next (s.setAcc (divF s.config s.acc (operandQ s.config opnd))).complete

end Sys2Proof.Machine
end

