-- ==== Sys2Proof/Machine/Flags.lean ====
section
/-! DEFINITION. The comparison flags EQ, LT and GT (spec/10_state.md R40; spec/42_incdec_compare.md R164), the only
condition codes of the unit, and the six relations read from them. No arithmetic command writes a flag (R40). -/

namespace Sys2Proof.Machine

/-- The flags after a signed integer comparison of `a` with `b` (R164). -/
def State.compare (s : State) (a b : Int) : State :=
  s.setFlags (decide (a = b)) (decide (a < b)) (decide (a > b))

/-- `==` is EQ (R40). -/
def Status.relEq (f : Status) : Bool := f.eq
/-- `!=` is not EQ (R40). -/
def Status.relNe (f : Status) : Bool := !f.eq
/-- `<` is LT (R40). -/
def Status.relLt (f : Status) : Bool := f.lt
/-- `>` is GT (R40). -/
def Status.relGt (f : Status) : Bool := f.gt
/-- `<=` is LT or EQ (R40). -/
def Status.relLe (f : Status) : Bool := f.lt || f.eq
/-- `>=` is GT or EQ (R40). -/
def Status.relGe (f : Status) : Bool := f.gt || f.eq

end Sys2Proof.Machine
end

