-- ==== Sys2Proof/Machine/Compare.lean ====
section
/-! DEFINITION. CMP, the only writer of the flags (spec/42_incdec_compare.md R164). -/

namespace Sys2Proof.Machine

/-- CMP: EQ, LT and GT from the signed comparison of `A` with `B` (R164). -/
def execCmp (opnd : DataWord) (s : State) : Host.Outcome State Fault Refusal :=
  .next (s.compare s.A (sint (operandQ s.config opnd))).complete

end Sys2Proof.Machine
end

