-- ==== Sys2Proof/Machine/Construct.lean ====
section
/-! DEFINITION. Construction and extraction: LDQ, LDF, TOINT, TOF (spec/40_construct_extract.md R101 to R104). -/

namespace Sys2Proof.Machine

/-- LDQ: `ACC <- word_W(B)` (R101). -/
def execLdq (opnd : DataWord) (s : State) : Host.Outcome State Fault Refusal :=
  .next (s.setAcc (operandQ s.config opnd)).complete

/-- LDF: `ACC <- word_W(trunc(x * 2^F))`, or the fault CVT_RANGE (R102, R203). -/
def execLdf (opnd : DataWord) (s : State) : Host.Outcome State Fault Refusal :=
  match ldfScaled s.config opnd with
  | none => .next (s.raiseFault .cvtRange (encode (.ldf opnd)))
  | some v => .next (s.setAcc (word s.config.W v)).complete

/-- TOINT: `RES <- word_64(trunc_div(A, 2^F))` (R103). -/
def execToint (_opnd : DataWord) (s : State) : Host.Outcome State Fault Refusal :=
  .next (s.setRes (word 64 (truncDiv s.A (2 ^ s.config.F)))).complete

/-- TOF: `RES <- f64_bits(A / 2^F)` (R104). -/
def execTof (_opnd : DataWord) (s : State) : Host.Outcome State Fault Refusal :=
  .next (s.setRes (f64Bits s.A s.config.F)).complete

end Sys2Proof.Machine
end

