-- ==== Sys2Proof/Machine/Control.lean ====
section
/-! DEFINITION. The control command NOP (spec/40_construct_extract.md R100). A meaning is what the unit does at the
command's completion edge (spec/10_state.md R42; log 6): the writes, and SEQ. -/

namespace Sys2Proof.Machine

/-- NOP writes nothing; SEQ returns to IDLE (R100). -/
def execNop (_opnd : DataWord) (s : State) : Host.Outcome State Fault Refusal :=
  .next s.complete

end Sys2Proof.Machine
end

