-- ==== Sys2Proof/Machine/IncDec.lean ====
section
/-! DEFINITION. Increment and decrement by one unit: INC, DEC, INCP, DECP (spec/42_incdec_compare.md R160 to R163).
The prefix forms give RES the new value, the postfix forms the value ACC held before. -/

namespace Sys2Proof.Machine

/-- INC: `++x` (R160). -/
def execInc (_opnd : DataWord) (s : State) : Host.Outcome State Fault Refusal :=
  .next (s.setAcc (incF s.config s.acc)).complete

/-- DEC: `--x` (R161). -/
def execDec (_opnd : DataWord) (s : State) : Host.Outcome State Fault Refusal :=
  .next (s.setAcc (decF s.config s.acc)).complete

/-- INCP: `x++` (R162). -/
def execIncp (_opnd : DataWord) (s : State) : Host.Outcome State Fault Refusal :=
  .next (s.setAccRes (incF s.config s.acc) (sext64 s.acc)).complete

/-- DECP: `x--` (R163). -/
def execDecp (_opnd : DataWord) (s : State) : Host.Outcome State Fault Refusal :=
  .next (s.setAccRes (decF s.config s.acc) (sext64 s.acc)).complete

end Sys2Proof.Machine
end

