-- ==== Sys2Proof/Machine/Trig.lean ====
section
/-! DEFINITION. The sine and cosine engine: SIN and COS by truncated Maclaurin series over the unit's own primitives
(spec/43_trig.md R180 to R184), every intermediate a W-bit word (R182). -/

namespace Sys2Proof.Machine

/-- The constant `K(n) = n * 2^F` (R180). -/
def seriesConst (c : Config) (n : Int) : BitVec c.W := word c.W (n * 2 ^ c.F)

/-- SIN is available iff `W - 1 - F >= 13` (R181). -/
def sinAvailable (c : Config) : Bool := decide (13 ≤ c.W - 1 - c.F)

/-- COS is available iff `W - 1 - F >= 10` (R181). -/
def cosAvailable (c : Config) : Bool := decide (10 ≤ c.W - 1 - c.F)

/-- The steps of SIN, in the order of R183: powers by repeated multiplication by `x`, terms added left to right. -/
def sinSteps (c : Config) (x : BitVec c.W) : List (TrigTemps c.W → TrigTemps c.W) :=
  [fun t => { t with p1 := x },
   fun t => { t with p2 := mulF c t.p1 x },
   fun t => { t with p3 := mulF c t.p2 x },
   fun t => { t with p4 := mulF c t.p3 x },
   fun t => { t with p5 := mulF c t.p4 x },
   fun t => { t with p6 := mulF c t.p5 x },
   fun t => { t with p7 := mulF c t.p6 x },
   fun t => { t with s := subF c x (divF c t.p3 (seriesConst c 6)) },
   fun t => { t with s := addF c t.s (divF c t.p5 (seriesConst c 120)) },
   fun t => { t with s := subF c t.s (divF c t.p7 (seriesConst c 5040)) }]

/-- The steps of COS, in the order of R184. -/
def cosSteps (c : Config) (x : BitVec c.W) : List (TrigTemps c.W → TrigTemps c.W) :=
  [fun t => { t with p1 := x },
   fun t => { t with p2 := mulF c t.p1 x },
   fun t => { t with p3 := mulF c t.p2 x },
   fun t => { t with p4 := mulF c t.p3 x },
   fun t => { t with p5 := mulF c t.p4 x },
   fun t => { t with p6 := mulF c t.p5 x },
   fun t => { t with s := subF c (seriesConst c 1) (divF c t.p2 (seriesConst c 2)) },
   fun t => { t with s := addF c t.s (divF c t.p4 (seriesConst c 24)) },
   fun t => { t with s := subF c t.s (divF c t.p6 (seriesConst c 720)) }]

/-- Steps performed one after another on the temporaries `t`. -/
def runSteps {w : Nat} (steps : List (TrigTemps w → TrigTemps w)) (t : TrigTemps w) : TrigTemps w :=
  steps.foldl (fun t f => f t) t

/-- The next `k` steps of a command whose steps are `steps`, from the place the engine has reached. -/
def TrigTemps.advance {w : Nat} (t : TrigTemps w) (steps : List (TrigTemps w → TrigTemps w)) (k : Nat) :
    TrigTemps w :=
  { runSteps ((steps.drop t.pos).take k) t with pos := min (t.pos + k) steps.length }

/-- The value of SIN: the partial sum after all of its steps (R183). No temporary is read before it is written. -/
def sinSeries (c : Config) (x : BitVec c.W) : BitVec c.W := (runSteps (sinSteps c x) (TrigTemps.zero c.W)).s

/-- The value of COS, in the same way (R184). -/
def cosSeries (c : Config) (x : BitVec c.W) : BitVec c.W := (runSteps (cosSteps c x) (TrigTemps.zero c.W)).s

/-- The steps the engine performs while an instruction is in flight: none but for an available SIN or COS, since
UNSUPPORTED comes before any computation (R181). -/
def engineSteps (c : Config) (x : BitVec c.W) : Instr → List (TrigTemps c.W → TrigTemps c.W)
  | .sin _ => if sinAvailable c then sinSteps c x else []
  | .cos _ => if cosAvailable c then cosSteps c x else []
  | .nop _ | .ldq _ | .ldf _ | .toint _ | .tof _ | .pos _ | .neg _ | .abs _ | .add _ | .sub _ | .mul _ | .div _
  | .inc _ | .dec _ | .incp _ | .decp _ | .cmp _ => []

/-- The steps of a command pair in flight; an illegal word has none. -/
def commandSteps (c : Config) (x : BitVec c.W) (cmd : Command) : List (TrigTemps c.W → TrigTemps c.W) :=
  match decode cmd with
  | .ok i => engineSteps c x i
  | .error _ => []

/-- The number of steps the engine performs, of the `total` of its sequence, at an edge within BUSY that leaves `left`
edges before the completion edge. It is open and free, but in the last cycle all are done, since the completion edge
writes the result at once (R42, R182; log 17). -/
def enginePace (n total left : Nat) : Nat := if left = 0 then total else Config.freePace n left

/-- The temporaries `t` after such an edge of the engine's `n`-th run, whose place in the sequence was `pos`, for the
steps of the command in flight; a command without steps leaves them. -/
def TrigTemps.edge {w : Nat} (t : TrigTemps w) (steps : List (TrigTemps w → TrigTemps w)) (n pos left : Nat) :
    TrigTemps w :=
  if steps.isEmpty then t else TrigTemps.advance { t with pos := pos } steps (enginePace n steps.length left)

/-- The engine's side of an edge within BUSY, its place in the sequence being `pos` before it. -/
def State.engineEdge (s : State) (cmd : Command) (pos left : Nat) : State :=
  { s with temps := s.temps.edge (commandSteps s.config s.acc cmd) s.freeCount pos left }

/-- SIN, or the fault UNSUPPORTED before any computation (R183, R204). The temporaries are dead after completion
(R42): they become free values (log 7). -/
def execSin (opnd : DataWord) (s : State) : Host.Outcome State Fault Refusal :=
  if sinAvailable s.config then .next (s.setAcc (sinSeries s.config s.acc)).discardTemps.complete
  else .next (s.raiseFault .unsupported (encode (.sin opnd)))

/-- COS, or the fault UNSUPPORTED before any computation (R184, R204). The temporaries become free values (log 7). -/
def execCos (opnd : DataWord) (s : State) : Host.Outcome State Fault Refusal :=
  if cosAvailable s.config then .next (s.setAcc (cosSeries s.config s.acc)).discardTemps.complete
  else .next (s.raiseFault .unsupported (encode (.cos opnd)))

end Sys2Proof.Machine
end

