-- ==== Sys2Proof/Machine/Dispatch.lean ====
section
/-! DEFINITION. The dispatch: one meaning per command of spec/30_encoding.md R82. -/

namespace Sys2Proof.Machine

def exec (i : Instr) (s : State) : Host.Outcome State Fault Refusal :=
  match i with
  | .nop opnd => Sys2Proof.Machine.execNop opnd s
  | .ldq opnd => Sys2Proof.Machine.execLdq opnd s
  | .ldf opnd => Sys2Proof.Machine.execLdf opnd s
  | .toint opnd => Sys2Proof.Machine.execToint opnd s
  | .tof opnd => Sys2Proof.Machine.execTof opnd s
  | .pos opnd => Sys2Proof.Machine.execPos opnd s
  | .neg opnd => Sys2Proof.Machine.execNeg opnd s
  | .abs opnd => Sys2Proof.Machine.execAbs opnd s
  | .add opnd => Sys2Proof.Machine.execAdd opnd s
  | .sub opnd => Sys2Proof.Machine.execSub opnd s
  | .mul opnd => Sys2Proof.Machine.execMul opnd s
  | .div opnd => Sys2Proof.Machine.execDiv opnd s
  | .inc opnd => Sys2Proof.Machine.execInc opnd s
  | .dec opnd => Sys2Proof.Machine.execDec opnd s
  | .incp opnd => Sys2Proof.Machine.execIncp opnd s
  | .decp opnd => Sys2Proof.Machine.execDecp opnd s
  | .cmp opnd => Sys2Proof.Machine.execCmp opnd s
  | .sin opnd => Sys2Proof.Machine.execSin opnd s
  | .cos opnd => Sys2Proof.Machine.execCos opnd s

end Sys2Proof.Machine
end

