-- ==== Sys2Proof/Machine/Ports.lean ====
section
/-! DEFINITION. The unit's ports (spec/10_state.md R30): every output is a function of the state, so a read changes
nothing (spec/20_memory.md R62), and the host's input pins at the coming edge. -/

namespace Sys2Proof.Machine

/-- The code of a cause in STATUS.CAUSE (spec/60_exceptions.md R200). -/
def Cause.code : Cause → BitVec 4
  | .none => 0
  | .illegalCmd => 1
  | .divZero => 2
  | .cvtRange => 3
  | .unsupported => 4

/-- STATUS.BUSY is 1 iff SEQ = BUSY (R36, R42). -/
def State.busy (s : State) : Bool :=
  match s.seq with
  | .idle => false
  | .busy _ _ => true
  | .faulted => false

/-- Port `status`, the STATUS register (R36): bits 31:16 reserved, CAUSE 15:12, 11:10 reserved, BUSY 9, FAULT 8, 7:3
reserved, GT 2, LT 1, EQ 0. -/
def State.statusPort (s : State) : BitVec 32 :=
  0#16 ++ s.status.cause.code ++ 0#2 ++ BitVec.ofBool s.busy ++ BitVec.ofBool s.status.fault ++ 0#5
    ++ BitVec.ofBool s.status.gt ++ BitVec.ofBool s.status.lt ++ BitVec.ofBool s.status.eq

/-- The CONFIG register of a configuration (R37): WS 31:24, W 23:16, F 15:8, D 7:0. -/
def configWord (c : Config) : BitVec 32 :=
  BitVec.ofNat 8 c.WS ++ BitVec.ofNat 8 c.W ++ BitVec.ofNat 8 c.F ++ BitVec.ofNat 8 c.D

/-- The configuration string `FXU-D<D>F<F>` (spec/00_scope.md R2). -/
def isaString (c : Config) : String := "FXU-D" ++ toString c.D ++ "F" ++ toString c.F

/-- Port `config` (R30, R37). -/
def State.configPort (s : State) : BitVec 32 := configWord s.config

/-- Port `res` (R30, R35). -/
def State.resPort (s : State) : DataWord := s.res

/-- Port `fcmd` (R30, R38). -/
def State.fcmdPort (s : State) : CmdWord := s.fcmd

/-- Port `fopnd` (R30, R39). -/
def State.fopndPort (s : State) : DataWord := s.fopnd

/-- Port `fault`, the level signal equal to STATUS.FAULT (R30, R209). -/
def State.faultPort (s : State) : Bool := s.status.fault

/-- The level of input `rst` at the coming edge: the head of the host's list, 0 past its end (R30; log 4). -/
def State.rstPin (s : State) : Bool := s.rst.headD false

/-- The command the host offers at the coming edge (`cmd_valid = 1`), if any (R30; log 4). -/
def State.offerPin (s : State) : Option Command :=
  match s.offers with
  | [] => none
  | o :: _ => o

/-- Port `cmd_ready`: 1 iff SEQ = IDLE and `rst = 0` (R30, R42). -/
def State.cmdReady (s : State) : Bool := decide (s.seq = .idle) && !s.rstPin

end Sys2Proof.Machine
end

