-- ==== Sys2Proof/Machine/Execute.lean ====
section
/-! DEFINITION. One rising edge of `clk` (spec/10_state.md R30, R42): accepting an offered command, counting its
cycles, completing it (spec/30_encoding.md R89), and reset (spec/70_reset_and_hazards.md R230). -/

namespace Sys2Proof.Machine

/-- `execute(CMD, OPND)` of R89: an illegal word raises ILLEGAL_CMD, a legal one performs its command's rule. -/
def execute (c : Command) (s : State) : Host.Outcome State Fault Refusal :=
  match decode c with
  | .ok i => exec i s
  | .error _ => .next (s.raiseFault .illegalCmd c)

/-- The number of edges that pass before the completion edge of a command: `LAT(op) - 1`, by the opcode byte (R10,
R236; log 2, log 3). -/
def cyclesBefore (c : Config) (cmd : CmdWord) : Nat := c.lat.getD (opField cmd).toNat 0

/-- The host's side of one edge: it goes on to its next `rst` level, and an edge without an offer is over; an offer
stays until it is accepted, at a reset edge too (R214; log 4, log 5). -/
def State.hostEdge (s : State) : State :=
  { s with
    rst := s.rst.tail
    offers := match s.offers with
      | none :: rest => rest
      | os => os }

/-- The transfer of a command in IDLE: both words are taken, SEQ becomes BUSY (R42, R62), the host's offer is over,
and a SIN or COS starts its sequence (R182). -/
def State.accept (s : State) (c : Command) : State :=
  State.engineEdge { s with seq := .busy c (cyclesBefore s.config c.cmd), offers := s.offers.tail } c 0
    (cyclesBefore s.config c.cmd)

/-- A cycle of BUSY before the completion edge, `left` more to come: the engine goes on (R42, R182). -/
def State.countCycle (s : State) (c : Command) (left : Nat) : State :=
  State.engineEdge { s with seq := .busy c left } c s.temps.pos left

/-- The unit and the host at one edge with `rst = 0` (R42). IDLE accepts an offer; BUSY counts down and, at the
completion edge, applies the command's writes at once; FAULTED accepts nothing and changes nothing (R208). -/
def unitEdge (s : State) : Host.Outcome State Fault Refusal :=
  match s.seq with
  | .idle =>
    match s.offerPin with
    | some c => .next (s.hostEdge.accept c)
    | none => .next s.hostEdge
  | .busy c (left + 1) => .next (s.hostEdge.countCycle c left)
  | .busy c 0 => execute c s.hostEdge
  | .faulted => .next s.hostEdge

/-- One rising edge of `clk`. "Reset outranks everything" (spec/60_exceptions.md R207): with `rst = 1` every register
takes its reset value and nothing else happens. -/
def edge (s : State) : Host.Outcome State Fault Refusal :=
  if s.rstPin then .next s.hostEdge.resetEdge else unitEdge s

/-- The state in which the command of the bits `w` is in flight with its completion edge next and `rst = 0`: the next
step runs exactly that command (log 6, log 10). The temporaries stay, since no completion reads them. -/
def State.withInFlight (s : State) (c : Command) : State :=
  { s with seq := .busy c 0, rst := [] }

end Sys2Proof.Machine
end

