-- ==== Sys2Proof/Machine/Step.lean ====
section
/-! DEFINITION. The step of the machine: one rising edge of `clk` (log 6). -/

namespace Sys2Proof.Machine

/-- One step is one rising edge of `clk`. It answers a next state from every state (spec/70_reset_and_hazards.md
R237). -/
def step (s : State) : Host.Outcome State Fault Refusal := edge s

/-- `s` with the command whose bits are `w` where the next step runs it. The unit fetches nothing (spec/10_state.md
R32): the command is placed in flight, as the host's transfer would place it. -/
def State.withFetchWord (s : State) (nbits w : Nat) : State := s.withInFlight (tableCommand nbits w)

end Sys2Proof.Machine
end

