-- ==== Sys2Proof/Safety.lean ====
section
/-! DEFINITION. What a run is judged by: its end (spec/60_exceptions.md R217), and the invariant of the unit's
registers (spec/10_state.md R36 to R42; spec/60_exceptions.md R200, R206). -/

namespace Sys2Proof.Machine

/-- Whether an IDLE unit completes one more of the commands the host offers before the host's next reset, if any: the
first one it accepts has its completion edge before that reset (R42, R236). A reset abandons a command in flight (R230),
and what the host offers after it belongs to the next run (R217). -/
def completesMore (c : Config) : List Bool → List (Option Command) → Bool
  | true :: _, _ => false
  | _, [] => false
  | [], some _ :: _ => true
  | false :: rs, some cmd :: _ => !(rs.take (cyclesBefore c cmd.cmd + 1)).contains true
  | [], none :: os => completesMore c [] os
  | false :: rs, none :: os => completesMore c rs os

/-- The end of a run: the last completion is past, since the unit is FAULTED, or IDLE with no further completion before
the host's next reset. "A state with SEQ = BUSY is never an end state" (R217). DESIGN CHOICE (log 19): a run in which no
command completes, because none is accepted or the only one accepted is abandoned by a reset, has no completion edge,
and the spec is silent on its end; its end state here is the IDLE state it started in, a clean end. -/
def State.isEnd (s : State) : Bool :=
  match s.seq with
  | .idle => !completesMore s.config s.rst s.offers
  | .busy _ _ => false
  | .faulted => true

/-- The run ended cleanly: an end state with STATUS.FAULT = 0 (R217). -/
def State.endedCleanly (s : State) : Bool := s.isEnd && !s.status.fault

/-- The run ended in fault: an end state with STATUS.FAULT = 1 (R217). -/
def State.endedInFault (s : State) : Bool := s.isEnd && s.status.fault

/-- At most one of EQ, LT and GT is 1 (R36). -/
def Status.flagsExclusive (f : Status) : Prop :=
  ¬(f.eq = true ∧ f.lt = true) ∧ ¬(f.eq = true ∧ f.gt = true) ∧ ¬(f.lt = true ∧ f.gt = true)

/-- CAUSE, FCMD and FOPND tell the one fault since reset (R200, R206, R208): with no fault the two words are 0, and
with a cause the recorded command is one that raises exactly that cause in this configuration. -/
def State.faultRecord (s : State) : Prop :=
  match s.status.cause with
  | .none => s.fcmd = 0 ∧ s.fopnd = 0
  | .illegalCmd => ∃ e, decode ⟨s.fcmd, s.fopnd⟩ = .error e
  | .divZero => s.fcmd = 0x2B ∧ operandQ s.config s.fopnd = 0
  | .cvtRange => s.fcmd = 0x11 ∧ ldfScaled s.config s.fopnd = none
  | .unsupported =>
    (s.fcmd = 0x40 ∧ sinAvailable s.config = false) ∨ (s.fcmd = 0x41 ∧ cosAvailable s.config = false)

/-- The invariant of the unit: FAULT = 1 iff SEQ = FAULTED (R41, R206), CAUSE = 0 iff FAULT = 0 (R41), at most one
flag (R36), and the fault record. -/
def State.Inv (s : State) : Prop :=
  (s.status.fault = true ↔ s.seq = .faulted) ∧ (s.status.cause = .none ↔ s.status.fault = false) ∧
    s.status.flagsExclusive ∧ s.faultRecord

/-- What the engine holds within BUSY (R42, R182): some first steps of the command's sequence have been performed on
the temporaries, and in the last cycle all of them (log 17). -/
def State.engineHolds (s : State) : Prop :=
  ∀ c left, s.seq = .busy c left →
    commandSteps s.config s.acc c = [] ∨
      (∃ t, s.temps = runSteps ((commandSteps s.config s.acc c).take s.temps.pos) t) ∧
        s.temps.pos ≤ (commandSteps s.config s.acc c).length ∧
        (left = 0 → s.temps.pos = (commandSteps s.config s.acc c).length)

/-- The opcode values of R82, in the order of its table. -/
def opcodeMap : List (BitVec 8) :=
  [0x00, 0x10, 0x11, 0x12, 0x13, 0x20, 0x21, 0x22, 0x28, 0x29, 0x2A, 0x2B, 0x30, 0x31, 0x32, 0x33, 0x38, 0x40, 0x41]

/-- A real number rounded toward zero (spec/40_construct_extract.md R102, R103). -/
def truncRat (q : ℚ) : ℤ := if 0 ≤ q then ⌊q⌋ else ⌈q⌉

/-- A real number rounded to the nearest integer, ties away from zero (spec/41_arithmetic.md R135). -/
def roundAway (q : ℚ) : ℤ := if 0 ≤ q then ⌊q + 1 / 2⌋ else ⌈q - 1 / 2⌉

/-- `v` lies in the W-bit signed range (R9). -/
abbrev inRange (c : Config) (v : ℤ) : Prop := -2 ^ (c.W - 1) ≤ v ∧ v ≤ 2 ^ (c.W - 1) - 1

/-- The state an instruction leaves; a state it gives no next state from is left as it is. -/
def State.after (s : State) (i : Instr) : State :=
  match exec i s with
  | .next t => t
  | .fault _ => s
  | .refused _ => s

/-- The effect of one command in a sequence (spec/20_memory.md R66): a faulted unit accepts it no more (R208). -/
def State.perform (s : State) (c : Command) : State :=
  if s.seq = .faulted then s
  else match execute c s with
    | .next t => t
    | .fault _ => s
    | .refused _ => s

/-- `s` with other inputs to come from the host. -/
def State.withInputs (s : State) (rs : List Bool) (os : List (Option Command)) : State := { s with rst := rs, offers := os }

/-- The sine of `x` computed command by command, the host holding each temporary it reads from RES
(spec/95_test_vectors.md P4; R183). -/
def State.hostSine (s : State) (x : DataWord) : DataWord :=
  let k := fun n => sext64 (seriesConst s.config n)
  let s2 := (s.after (.ldq x)).after (.mul x)
  let s3 := s2.after (.mul x)
  let s4 := s3.after (.mul x)
  let s5 := s4.after (.mul x)
  let s6 := s5.after (.mul x)
  let s7 := s6.after (.mul x)
  let t3 := (s7.after (.ldq s3.res)).after (.div (k 6))
  let t5 := (t3.after (.ldq s5.res)).after (.div (k 120))
  let t7 := (t5.after (.ldq s7.res)).after (.div (k 5040))
  ((((t7.after (.ldq x)).after (.sub t3.res)).after (.add t5.res)).after (.sub t7.res)).res

/-- The cosine of `x` computed command by command in the same way (R184). -/
def State.hostCosine (s : State) (x : DataWord) : DataWord :=
  let k := fun n => sext64 (seriesConst s.config n)
  let s2 := (s.after (.ldq x)).after (.mul x)
  let s3 := s2.after (.mul x)
  let s4 := s3.after (.mul x)
  let s5 := s4.after (.mul x)
  let s6 := s5.after (.mul x)
  let t2 := (s6.after (.ldq s2.res)).after (.div (k 2))
  let t4 := (t2.after (.ldq s4.res)).after (.div (k 24))
  let t6 := (t4.after (.ldq s6.res)).after (.div (k 720))
  ((((t6.after (.ldq (k 1))).after (.sub t2.res)).after (.add t4.res)).after (.sub t6.res)).res

end Sys2Proof.Machine
end

