-- ==== Sys2Proof/Certificates/Slice0/Obligations.lean ====
section
/-! DEFINITION. The statements for the provers, each from the rules its docstring cites. The next state is written as
an update of `s`, so that each statement about a command is its completion, its result and its frame at once: every
field not named is unchanged. The unit has no memory (spec/10_state.md R33). -/

open Sys2Proof Sys2Proof.Machine

/-! ## Encoding (spec/30_encoding.md) -/

/-- R82, R89: a command pair decodes to an instruction iff it is that instruction's encoding, so no bit is dropped and
no other pair is read as it. -/
def Obligations.DecodeIffEncode : Prop :=
  ∀ (c : Command) (i : Instr), decode c = .ok i ↔ c = encode i

/-- R86: the illegal words, by their two conditions and as every word but the 19 of R82, and what an illegal command
does: the fault entry and nothing else. -/
def Obligations.IllegalWordsFault : Prop :=
  ∀ (c : Command) (s : State),
    ((∃ e, decode c = .error e) ↔ (c.cmd.extractLsb' 8 24 ≠ 0 ∨ c.cmd.extractLsb' 0 8 ∉ opcodeMap)) ∧
    ((∃ e, decode c = .error e) ↔ c.cmd ∉ opcodeMap.map (BitVec.zeroExtend 32)) ∧
    ((∃ e, decode c = .error e) → execute c s = .next
      { s with
        status := { s.status with fault := true, cause := .illegalCmd }
        fcmd := c.cmd, fopnd := c.opnd, seq := .faulted })

/-- R82: words of the opcode map, one for each family, written out bit by bit. -/
def Obligations.WrittenWordsDecode : Prop :=
  ∀ o : DataWord,
    decode ⟨0b00000000000000000000000000000000#32, o⟩ = .ok (.nop o) ∧
    decode ⟨0b00000000000000000000000000010001#32, o⟩ = .ok (.ldf o) ∧
    decode ⟨0b00000000000000000000000000101011#32, o⟩ = .ok (.div o) ∧
    decode ⟨0b00000000000000000000000000110010#32, o⟩ = .ok (.incp o) ∧
    decode ⟨0b00000000000000000000000000111000#32, o⟩ = .ok (.cmp o) ∧
    decode ⟨0b00000000000000000000000001000001#32, o⟩ = .ok (.cos o)

/-- R83: the bits of OPND above W are ignored by every command of operand form Q: the outcomes agree, but for the
operand word that a fault records. -/
def Obligations.UpperOperandBitsIgnored : Prop :=
  ∀ (s : State) (o o' : DataWord), o.setWidth s.config.W = o'.setWidth s.config.W →
    exec (.ldq o) s = exec (.ldq o') s ∧ exec (.add o) s = exec (.add o') s ∧
    exec (.sub o) s = exec (.sub o') s ∧ exec (.mul o) s = exec (.mul o') s ∧
    exec (.cmp o) s = exec (.cmp o') s ∧
    ∃ t t', exec (.div o) s = .next t ∧ exec (.div o') s = .next t' ∧ t' = { t with fopnd := t'.fopnd } ∧
      (t.seq ≠ .faulted → t' = t)

/-- R85: a command of operand form "none" does not read OPND; only a fault records it. -/
def Obligations.UnusedOperandOnlyRecorded : Prop :=
  ∀ (i j : Instr) (s : State), i.form = .none → i.opcode = j.opcode →
    ∃ t t', exec i s = .next t ∧ exec j s = .next t' ∧ t' = { t with fopnd := t'.fopnd } ∧
      (t.seq = .faulted → t.fopnd = i.operand ∧ t'.fopnd = j.operand) ∧ (t.seq ≠ .faulted → t' = t)

/-! ## The configuration (spec/00_scope.md) -/

/-- R6: W is the smallest of 8, 16, 32 that holds D + F bits. -/
def Obligations.StorageWidthIsSmallest : Prop :=
  ∀ c : Config, c.W ∈ [8, 16, 32] ∧ c.D + c.F ≤ c.W ∧ ∀ n ∈ [8, 16, 32], c.D + c.F ≤ n → c.W ≤ n

/-- R7: the datapath width is 2 W; it is the source's scratch width `resolve(2 (D + F))` when `D + F >= 5`, and below
that the scratch width is only W = 8. -/
def Obligations.DatapathWidthIsScratchWidth : Prop :=
  ∀ c : Config, c.WS = 2 * c.W ∧ (5 ≤ c.D + c.F → c.WS = c.W2) ∧ (c.D + c.F ≤ 4 → c.W2 = 8 ∧ c.W = 8)

/-- R7: no intermediate of MUL or DIV leaves the WS-bit signed range. -/
def Obligations.DatapathNeverOverflows : Prop :=
  ∀ (c : Config) (a b : BitVec c.W),
    (-2 ^ (c.WS - 1) ≤ sint a * sint b ∧ sint a * sint b ≤ 2 ^ (c.WS - 1) - 1) ∧
    (-2 ^ (c.WS - 1) ≤ sint a * 2 ^ c.F ∧ sint a * 2 ^ c.F ≤ 2 ^ (c.WS - 1) - 1) ∧
    (|sint a * 2 ^ c.F| + |(sint b).tdiv 2| ≤ 2 ^ (c.WS - 1) - 1)

/-- R9: the represented values are exactly `k / 2^F` for `k` in the W-bit signed range, with their bounds, their order
that of the words, and one unit among the scaled integers iff `F <= W - 2`. -/
def Obligations.ScaledValueRangeAndOrder : Prop :=
  ∀ (c : Config) (a b : BitVec c.W),
    scaledValue c a = (sint a : ℚ) / 2 ^ c.F ∧
    (∀ v : ℚ, (∃ q : BitVec c.W, scaledValue c q = v) ↔ ∃ k : ℤ, inRange c k ∧ v = k / 2 ^ c.F) ∧
    -(2 : ℚ) ^ (c.W - 1 - c.F) ≤ scaledValue c a ∧
    scaledValue c a ≤ (2 : ℚ) ^ (c.W - 1 - c.F) - 1 / 2 ^ c.F ∧
    (scaledValue c a < scaledValue c b ↔ sint a < sint b) ∧
    (inRange c (2 ^ c.F) ↔ c.F ≤ c.W - 2)

/-- R37: the fields of CONFIG, and its word in the machine's own configuration, the model's choice
(log 1). -/
def Obligations.ConfigWordFields : Prop :=
  (∀ s : State,
    (s.configPort.extractLsb' 0 8).toNat = s.config.D ∧ (s.configPort.extractLsb' 8 8).toNat = s.config.F ∧
    (s.configPort.extractLsb' 16 8).toNat = s.config.W ∧ (s.configPort.extractLsb' 24 8).toNat = s.config.WS) ∧
  State.reset.configPort = 0x40201010#32

/-- R36: the layout of STATUS. -/
def Obligations.StatusWordFields : Prop :=
  ∀ s : State,
    s.statusPort.getLsbD 0 = s.status.eq ∧ s.statusPort.getLsbD 1 = s.status.lt ∧
    s.statusPort.getLsbD 2 = s.status.gt ∧ s.statusPort.extractLsb' 3 5 = 0 ∧
    s.statusPort.getLsbD 8 = s.status.fault ∧ (s.statusPort.getLsbD 9 = true ↔ ∃ c n, s.seq = .busy c n) ∧
    s.statusPort.extractLsb' 10 2 = 0 ∧ (s.statusPort.extractLsb' 12 4).toNat ≤ 4 ∧
    s.statusPort.extractLsb' 12 4 = s.status.cause.code ∧ s.statusPort.extractLsb' 16 16 = 0

/-! ## Control, construction and extraction (spec/40_construct_extract.md) -/

/-- R100: NOP completes and writes nothing. -/
def Obligations.NopWritesNothing : Prop :=
  ∀ (s : State) (o : DataWord), encode (.nop o) = ⟨0x00000000, o⟩ ∧ exec (.nop o) s = .next { s with seq := .idle }

/-- R101: LDQ loads the low W bits of OPND, whatever stands above them. -/
def Obligations.LdqLoadsLowBits : Prop :=
  ∀ (s : State) (o : DataWord), encode (.ldq o) = ⟨0x00000010, o⟩ ∧
    ∃ (a : BitVec s.config.W) (r : DataWord), exec (.ldq o) s = .next { s with acc := a, res := r, seq := .idle } ∧
      a.toNat = o.toNat % 2 ^ s.config.W ∧ sint r = sint a

/-- R102, R203: LDF of a finite value whose truncated scaled value is in range writes that value; for NaN, an infinity
or a truncated scaled value out of range it raises CVT_RANGE and writes nothing else. -/
def Obligations.LdfTruncatesOrFaults : Prop :=
  ∀ (s : State) (o : DataWord), encode (.ldf o) = ⟨0x00000011, o⟩ ∧
    (∀ x, (f64Value o).real = some x → inRange s.config (truncRat (x * 2 ^ s.config.F)) →
      ∃ (a : BitVec s.config.W) (r : DataWord), exec (.ldf o) s = .next { s with acc := a, res := r, seq := .idle } ∧
        sint a = truncRat (x * 2 ^ s.config.F) ∧ sint r = sint a) ∧
    ((∀ x, (f64Value o).real = some x → ¬inRange s.config (truncRat (x * 2 ^ s.config.F))) →
      exec (.ldf o) s = .next
        { s with
          status := { s.status with fault := true, cause := .cvtRange }
          fcmd := 0x00000011, fopnd := o, seq := .faulted })

/-- R103: TOINT gives the value rounded toward zero, and it always fits. -/
def Obligations.TointTruncates : Prop :=
  ∀ (s : State) (o : DataWord), encode (.toint o) = ⟨0x00000012, o⟩ ∧
    ∃ r : DataWord, exec (.toint o) s = .next { s with res := r, seq := .idle } ∧
      sint r = truncRat (scaledValue s.config s.acc) ∧
      -2 ^ (s.config.W - 1 - s.config.F) ≤ sint r ∧ sint r ≤ 2 ^ (s.config.W - 1 - s.config.F) - 1

/-- R104: TOF gives the binary64 word of exactly `A / 2^F`, and `+0.0` for 0. -/
def Obligations.TofIsExact : Prop :=
  ∀ (s : State) (o : DataWord), encode (.tof o) = ⟨0x00000013, o⟩ ∧
    ∃ r : DataWord, exec (.tof o) s = .next { s with res := r, seq := .idle } ∧
      (f64Value r).real = some (scaledValue s.config s.acc) ∧ (sint s.acc = 0 → r = 0)

/-- R105: LDF then TOF gives a value within `2^-F` of the operand, of its sign or zero. -/
def Obligations.LdfTofRoundTrip : Prop :=
  ∀ (s t u : State) (o o' : DataWord) (x : ℚ), (f64Value o).real = some x → exec (.ldf o) s = .next t →
    t.seq = .idle → exec (.tof o') t = .next u →
    ∃ y : ℚ, (f64Value u.res).real = some y ∧ |x - y| < 1 / 2 ^ s.config.F ∧ (y = 0 ∨ (0 < x ∧ 0 < y) ∨ (x < 0 ∧ y < 0))

/-- R102, R104: LDF of the word TOF gives loads ACC with the value it held. -/
def Obligations.TofThenLdfRestores : Prop :=
  ∀ (s t : State) (o : DataWord), exec (.tof o) s = .next t →
    ∃ a r, exec (.ldf t.res) s = .next { s with acc := a, res := r, seq := .idle } ∧ a = s.acc

/-! ## Arithmetic (spec/41_arithmetic.md) -/

/-- R130: POS copies ACC to RES. -/
def Obligations.PosCopies : Prop :=
  ∀ (s : State) (o : DataWord), encode (.pos o) = ⟨0x00000020, o⟩ ∧
    ∃ r : DataWord, exec (.pos o) s = .next { s with res := r, seq := .idle } ∧ sint r = sint s.acc

/-- R131: NEG writes `-A` wrapped to W bits. -/
def Obligations.NegWraps : Prop :=
  ∀ (s : State) (o : DataWord), encode (.neg o) = ⟨0x00000021, o⟩ ∧
    ∃ (a : BitVec s.config.W) (r : DataWord), exec (.neg o) s = .next { s with acc := a, res := r, seq := .idle } ∧
      sint a = (-sint s.acc).bmod (2 ^ s.config.W) ∧ sint r = sint a ∧
      (sint s.acc = -2 ^ (s.config.W - 1) → a = s.acc)

/-- R132: ADD writes `A + B` wrapped to W bits. -/
def Obligations.AddWraps : Prop :=
  ∀ (s : State) (o : DataWord), encode (.add o) = ⟨0x00000028, o⟩ ∧
    ∃ (a : BitVec s.config.W) (r : DataWord), exec (.add o) s = .next { s with acc := a, res := r, seq := .idle } ∧
      sint a = (sint s.acc + sint (o.setWidth s.config.W)).bmod (2 ^ s.config.W) ∧ sint r = sint a

/-- R133: SUB writes `A - B` wrapped to W bits. -/
def Obligations.SubWraps : Prop :=
  ∀ (s : State) (o : DataWord), encode (.sub o) = ⟨0x00000029, o⟩ ∧
    ∃ (a : BitVec s.config.W) (r : DataWord), exec (.sub o) s = .next { s with acc := a, res := r, seq := .idle } ∧
      sint a = (sint s.acc - sint (o.setWidth s.config.W)).bmod (2 ^ s.config.W) ∧ sint r = sint a

/-- R134: MUL writes the product rounded toward minus infinity at the scale `2^F`, wrapped to W bits. -/
def Obligations.MulFloorsAndWraps : Prop :=
  ∀ (s : State) (o : DataWord), encode (.mul o) = ⟨0x0000002A, o⟩ ∧
    ∃ (a : BitVec s.config.W) (r : DataWord), exec (.mul o) s = .next { s with acc := a, res := r, seq := .idle } ∧
      sint a = (⌊(sint s.acc * sint (o.setWidth s.config.W) : ℚ) / 2 ^ s.config.F⌋).bmod (2 ^ s.config.W) ∧
      sint r = sint a

/-- R135, R202: DIV by a non-zero operand writes `A * 2^F / B` rounded to the nearest integer, ties away from zero,
wrapped to W bits; by zero, whatever the bits of OPND above W, it raises DIV_ZERO and writes nothing else. -/
def Obligations.DivRoundsOrFaults : Prop :=
  ∀ (s : State) (o : DataWord), encode (.div o) = ⟨0x0000002B, o⟩ ∧
    (o.setWidth s.config.W ≠ 0 →
      ∃ (a : BitVec s.config.W) (r : DataWord), exec (.div o) s = .next { s with acc := a, res := r, seq := .idle } ∧
        sint a = (roundAway ((sint s.acc * 2 ^ s.config.F : ℚ) / sint (o.setWidth s.config.W))).bmod
          (2 ^ s.config.W) ∧
        sint r = sint a) ∧
    (o.setWidth s.config.W = 0 →
      exec (.div o) s = .next
        { s with
          status := { s.status with fault := true, cause := .divZero }
          fcmd := 0x0000002B, fopnd := o, seq := .faulted })

/-- R136: ABS writes the magnitude, and the minimum stays the minimum. -/
def Obligations.AbsWraps : Prop :=
  ∀ (s : State) (o : DataWord), encode (.abs o) = ⟨0x00000022, o⟩ ∧
    ∃ (a : BitVec s.config.W) (r : DataWord), exec (.abs o) s = .next { s with acc := a, res := r, seq := .idle } ∧
      sint a = (if 0 ≤ sint s.acc then sint s.acc else (-sint s.acc).bmod (2 ^ s.config.W)) ∧ sint r = sint a ∧
      (sint s.acc = -2 ^ (s.config.W - 1) → a = s.acc)

/-- R137 items 1 and 2: the laws of ADD, SUB, NEG and MUL on words. -/
def Obligations.AddSubMulLaws : Prop :=
  ∀ (c : Config) (x y z : BitVec c.W),
    addF c x y = addF c y x ∧ addF c (addF c x y) z = addF c x (addF c y z) ∧ addF c x (negF c x) = 0 ∧
    subF c x y = addF c x (negF c y) ∧ mulF c x y = mulF c y x

/-- R137 item 5: if `|B| >= 2^F` and MUL does not wrap, DIV of the product by B is within one unit of A. -/
def Obligations.DivNearlyInvertsMul : Prop :=
  ∀ (c : Config) (a b : BitVec c.W), 2 ^ c.F ≤ |sint b| →
    inRange c ⌊(sint a * sint b : ℚ) / 2 ^ c.F⌋ →
    sint (divF c (mulF c a b) b) = sint a - 1 ∨ sint (divF c (mulF c a b) b) = sint a ∨
      sint (divF c (mulF c a b) b) = sint a + 1

/-! ## Increment, decrement and comparison (spec/42_incdec_compare.md) -/

/-- R160: INC adds `2^F`, and RES is the new value. -/
def Obligations.IncAddsOneUnit : Prop :=
  ∀ (s : State) (o : DataWord), encode (.inc o) = ⟨0x00000030, o⟩ ∧
    ∃ (a : BitVec s.config.W) (r : DataWord), exec (.inc o) s = .next { s with acc := a, res := r, seq := .idle } ∧
      sint a = (sint s.acc + 2 ^ s.config.F).bmod (2 ^ s.config.W) ∧ sint r = sint a

/-- R161: DEC subtracts `2^F`, and RES is the new value. -/
def Obligations.DecSubtractsOneUnit : Prop :=
  ∀ (s : State) (o : DataWord), encode (.dec o) = ⟨0x00000031, o⟩ ∧
    ∃ (a : BitVec s.config.W) (r : DataWord), exec (.dec o) s = .next { s with acc := a, res := r, seq := .idle } ∧
      sint a = (sint s.acc - 2 ^ s.config.F).bmod (2 ^ s.config.W) ∧ sint r = sint a

/-- R162: INCP adds `2^F`, and RES is the old value. -/
def Obligations.IncpReturnsOldValue : Prop :=
  ∀ (s : State) (o : DataWord), encode (.incp o) = ⟨0x00000032, o⟩ ∧
    ∃ (a : BitVec s.config.W) (r : DataWord), exec (.incp o) s = .next { s with acc := a, res := r, seq := .idle } ∧
      sint a = (sint s.acc + 2 ^ s.config.F).bmod (2 ^ s.config.W) ∧ sint r = sint s.acc

/-- R163: DECP subtracts `2^F`, and RES is the old value. -/
def Obligations.DecpReturnsOldValue : Prop :=
  ∀ (s : State) (o : DataWord), encode (.decp o) = ⟨0x00000033, o⟩ ∧
    ∃ (a : BitVec s.config.W) (r : DataWord), exec (.decp o) s = .next { s with acc := a, res := r, seq := .idle } ∧
      sint a = (sint s.acc - 2 ^ s.config.F).bmod (2 ^ s.config.W) ∧ sint r = sint s.acc

/-- R164: CMP writes the three flags from the signed comparison, exactly one of them 1. -/
def Obligations.CmpSetsFlags : Prop :=
  ∀ (s : State) (o : DataWord), encode (.cmp o) = ⟨0x00000038, o⟩ ∧
    ∃ e l g : Bool, exec (.cmp o) s = .next { s with status := { s.status with eq := e, lt := l, gt := g }, seq := .idle } ∧
      (e = true ↔ sint s.acc = sint (o.setWidth s.config.W)) ∧
      (l = true ↔ sint s.acc < sint (o.setWidth s.config.W)) ∧
      (g = true ↔ sint (o.setWidth s.config.W) < sint s.acc) ∧
      ((e && !l && !g) || (!e && l && !g) || (!e && !l && g)) = true

/-- R40: the six relations of a completed CMP, read from the flags. -/
def Obligations.SixRelationsFromFlags : Prop :=
  ∀ (s t : State) (o : DataWord), exec (.cmp o) s = .next t →
    (t.status.relEq = true ↔ sint s.acc = sint (o.setWidth s.config.W)) ∧
    (t.status.relNe = true ↔ sint s.acc ≠ sint (o.setWidth s.config.W)) ∧
    (t.status.relLt = true ↔ sint s.acc < sint (o.setWidth s.config.W)) ∧
    (t.status.relGt = true ↔ sint s.acc > sint (o.setWidth s.config.W)) ∧
    (t.status.relLe = true ↔ sint s.acc ≤ sint (o.setWidth s.config.W)) ∧
    (t.status.relGe = true ↔ sint s.acc ≥ sint (o.setWidth s.config.W))

/-- R40: no command but CMP writes a flag, whether it completes or faults. -/
def Obligations.OnlyCmpWritesFlags : Prop :=
  ∀ (i : Instr) (s t : State), exec i s = .next t → (∀ o, i ≠ .cmp o) →
    t.status.eq = s.status.eq ∧ t.status.lt = s.status.lt ∧ t.status.gt = s.status.gt

/-! ## Sine and cosine (spec/43_trig.md) -/

/-- R181: SIN and COS are available iff their constants are representable; the consequences by width. -/
def Obligations.TrigAvailability : Prop :=
  ∀ c : Config,
    (sinAvailable c = true ↔ ∀ n ∈ [6, 120, 5040], inRange c (n * 2 ^ c.F)) ∧
    (cosAvailable c = true ↔ ∀ n ∈ [1, 2, 24, 720], inRange c (n * 2 ^ c.F)) ∧
    (c.W = 8 → sinAvailable c = false ∧ cosAvailable c = false) ∧
    (c.W = 16 → (sinAvailable c = true ↔ c.F ≤ 2) ∧ (cosAvailable c = true ↔ c.F ≤ 5)) ∧
    (c.W = 32 → (sinAvailable c = true ↔ c.F ≤ 18) ∧ (cosAvailable c = true ↔ c.F ≤ 21))

/-- R183: SIN, where available, writes the series in its order; elsewhere it raises UNSUPPORTED and writes nothing
else. Its temporaries are left free (log 7). -/
def Obligations.SinWritesSeriesOrFaults : Prop :=
  ∀ (s : State) (o : DataWord), encode (.sin o) = ⟨0x00000040, o⟩ ∧
    (13 ≤ s.config.W - 1 - s.config.F →
      ∃ (p2 p3 p4 p5 p6 p7 a : BitVec s.config.W) (r : DataWord) (tm : TrigTemps s.config.W) (n : Nat),
        exec (.sin o) s = .next { s with acc := a, res := r, temps := tm, freeCount := n, seq := .idle } ∧
        p2 = mulF s.config s.acc s.acc ∧ p3 = mulF s.config p2 s.acc ∧ p4 = mulF s.config p3 s.acc ∧
        p5 = mulF s.config p4 s.acc ∧ p6 = mulF s.config p5 s.acc ∧ p7 = mulF s.config p6 s.acc ∧
        a = subF s.config
          (addF s.config (subF s.config s.acc (divF s.config p3 (seriesConst s.config 6)))
            (divF s.config p5 (seriesConst s.config 120)))
          (divF s.config p7 (seriesConst s.config 5040)) ∧
        sint r = sint a) ∧
    (s.config.W - 1 - s.config.F < 13 →
      exec (.sin o) s = .next
        { s with
          status := { s.status with fault := true, cause := .unsupported }
          fcmd := 0x00000040, fopnd := o, seq := .faulted })

/-- R184: COS, where available, writes the series in its order; elsewhere it raises UNSUPPORTED and writes nothing
else. Its temporaries are left free (log 7). -/
def Obligations.CosWritesSeriesOrFaults : Prop :=
  ∀ (s : State) (o : DataWord), encode (.cos o) = ⟨0x00000041, o⟩ ∧
    (10 ≤ s.config.W - 1 - s.config.F →
      ∃ (p2 p3 p4 p5 p6 a : BitVec s.config.W) (r : DataWord) (tm : TrigTemps s.config.W) (n : Nat),
        exec (.cos o) s = .next { s with acc := a, res := r, temps := tm, freeCount := n, seq := .idle } ∧
        p2 = mulF s.config s.acc s.acc ∧ p3 = mulF s.config p2 s.acc ∧ p4 = mulF s.config p3 s.acc ∧
        p5 = mulF s.config p4 s.acc ∧ p6 = mulF s.config p5 s.acc ∧
        a = subF s.config
          (addF s.config (subF s.config (seriesConst s.config 1) (divF s.config p2 (seriesConst s.config 2)))
            (divF s.config p4 (seriesConst s.config 24)))
          (divF s.config p6 (seriesConst s.config 720)) ∧
        sint r = sint a) ∧
    (s.config.W - 1 - s.config.F < 10 →
      exec (.cos o) s = .next
        { s with
          status := { s.status with fault := true, cause := .unsupported }
          fcmd := 0x00000041, fopnd := o, seq := .faulted })

/-- R204: UNSUPPORTED is raised by SIN when `W - 1 - F < 13` and by COS when `W - 1 - F < 10`, and by the configuration
alone: from every state of it the command faults, or from none. -/
def Obligations.TrigFaultsByConfiguration : Prop :=
  ∀ (s : State) (o : DataWord),
    (∃ t, exec (.sin o) s = .next t ∧
      (if s.config.W - 1 - s.config.F < 13 then t.seq = .faulted ∧ t.status.cause = .unsupported ∧ sint t.acc = sint s.acc
        else t.seq = .idle)) ∧
    (∃ t, exec (.cos o) s = .next t ∧
      (if s.config.W - 1 - s.config.F < 10 then t.seq = .faulted ∧ t.status.cause = .unsupported ∧ sint t.acc = sint s.acc
        else t.seq = .idle))

/-- R180, R182: SIN gives what the host gets by issuing the primitive commands one by one. -/
def Obligations.SinIsItsPrimitiveCommands : Prop :=
  ∀ (s : State) (o : DataWord), sinAvailable s.config = true →
    (s.after (.sin o)).res = s.hostSine (sext64 s.acc) ∧ sint (s.after (.sin o)).acc = sint (s.hostSine (sext64 s.acc))

/-- R180, R182: COS gives what the host gets by issuing the primitive commands one by one. -/
def Obligations.CosIsItsPrimitiveCommands : Prop :=
  ∀ (s : State) (o : DataWord), cosAvailable s.config = true →
    (s.after (.cos o)).res = s.hostCosine (sext64 s.acc) ∧
      sint (s.after (.cos o)).acc = sint (s.hostCosine (sext64 s.acc))

/-! ## Faults (spec/60_exceptions.md) -/

/-- R206: every command pair, legal or not, completes, SEQ being IDLE and the fault registers unchanged, or does the
fault entry and nothing else. -/
def Obligations.CompletesOrFaultsPrecisely : Prop :=
  ∀ (c : Command) (s : State), ∃ t, execute c s = .next t ∧
    ((t.seq = .idle ∧ t.status.fault = s.status.fault ∧ t.status.cause = s.status.cause ∧ t.fcmd = s.fcmd ∧
        t.fopnd = s.fopnd) ∨
      ∃ k, k ≠ .none ∧ t =
        { s with
          status := { s.status with fault := true, cause := k }
          fcmd := c.cmd, fopnd := c.opnd, seq := .faulted })

/-- R207 item 2: the cause of a fault is fixed by the opcode. -/
def Obligations.CauseFixedByOpcode : Prop :=
  ∀ (i : Instr) (s t : State), exec i s = .next t → t.seq = .faulted →
    (t.status.cause = .divZero ∧ ∃ o, i = .div o) ∨ (t.status.cause = .cvtRange ∧ ∃ o, i = .ldf o) ∨
      (t.status.cause = .unsupported ∧ ∃ o, i = .sin o ∨ i = .cos o)

/-- R208: while `rst` stays 0, a faulted unit accepts nothing and no register of it changes, for any number of edges. The host's lists are the model's (log 4). -/
def Obligations.FaultedUntilReset : Prop :=
  ∀ (k : Nat) (s : State), s.seq = .faulted → (∀ j < k, s.rst.getD j false = false) →
    ∃ t, Host.Core.run core k s = .next t ∧ t = { s with rst := t.rst, offers := t.offers } ∧
      t.offers.filterMap id = s.offers.filterMap id

/-- R5, R10, R37: no step changes the configuration: D, F, CONFIG, and LAT, which is a table in the configuration by
the model's choice (log 2). -/
def Obligations.ConfigNeverChanges : Prop :=
  ∀ s t : State, step s = .next t → t.config = s.config ∧ t.configPort = s.configPort

/-! ## Edges, reset and runs (spec/10_state.md, spec/20_memory.md, spec/70_reset_and_hazards.md) -/

/-- R42, R89: at the completion edge the step is `exec` of the decoded command, and the fault entry of ILLEGAL_CMD for
an illegal word; around it the host goes on to its next inputs, which are lists of the model (log 4). -/
def Obligations.StepRunsDecodedCommand : Prop :=
  ∀ (s : State) (c : Command), s.rst.headD false = false → s.seq = .busy c 0 →
    (s.hostEdge =
      { s with rst := s.rst.tail, offers := if s.offers.head? = some none then s.offers.tail else s.offers }) ∧
    (∀ i, decode c = .ok i → step s = exec i s.hostEdge) ∧
    (∀ e, decode c = .error e → step s = .next
      { s.hostEdge with
        status := { s.status with fault := true, cause := .illegalCmd }
        fcmd := c.cmd, fopnd := c.opnd, seq := .faulted })

/-- R30, R42: an offer is accepted iff `cmd_ready = 1`; the command is then in flight for `LAT(op) >= 1` edges and no
register changes, nor a temporary but for a SIN or COS; otherwise the offer stays. LAT as a table, the host's lists and
that an offer stays pending at a reset edge are the model's (log 2, log 3, log 4, log 5). -/
def Obligations.AcceptsOfferWhenReady : Prop :=
  ∀ (s : State) (c : Command) (rest : List (Option Command)), s.offers = some c :: rest →
    (s.cmdReady = true ↔ s.seq = .idle ∧ s.rst.headD false = false) ∧
    (s.cmdReady = true →
      ∃ tm : TrigTemps s.config.W, step s = .next
          { s with
            seq := .busy c (s.config.lat.getD (c.cmd.extractLsb' 0 8).toNat 0), temps := tm, rst := s.rst.tail
            offers := rest } ∧
        (c.cmd ≠ 0x40 → c.cmd ≠ 0x41 → tm = s.temps)) ∧
    (s.cmdReady = false → ∀ t, step s = .next t → t.offers = s.offers)

/-- R42, R182: every step keeps what the engine holds within BUSY: some first steps of the sequence of R183 or R184
performed on the temporaries, and in the last cycle all of them. How many at each edge is free (log 17). -/
def Obligations.StepKeepsEngine : Prop :=
  ∀ s t : State, s.engineHolds → step s = .next t → t.engineHolds

/-- R45: the reset state of every configuration meets the invariant of `StepKeepsEngine`. -/
def Obligations.ResetMeetsEngine : Prop :=
  ∀ c : Config, (State.resetOf c).engineHolds

/-- R42, R182: in the last cycle of an available SIN or COS the temporaries hold its power chain and partial sum, and
the completion edge writes that sum to ACC and RES (log 17). -/
def Obligations.LastCycleHoldsPowerChain : Prop :=
  ∀ (s : State) (o : DataWord), s.engineHolds → s.rst.headD false = false →
    (s.seq = .busy (encode (.sin o)) 0 → sinAvailable s.config = true →
      (s.temps.p1 = s.acc ∧ s.temps.p2 = mulF s.config s.temps.p1 s.acc ∧ s.temps.p3 = mulF s.config s.temps.p2 s.acc ∧
        s.temps.p4 = mulF s.config s.temps.p3 s.acc ∧ s.temps.p5 = mulF s.config s.temps.p4 s.acc ∧
        s.temps.p6 = mulF s.config s.temps.p5 s.acc ∧ s.temps.p7 = mulF s.config s.temps.p6 s.acc ∧
        s.temps.s = subF s.config
          (addF s.config (subF s.config s.acc (divF s.config s.temps.p3 (seriesConst s.config 6)))
            (divF s.config s.temps.p5 (seriesConst s.config 120)))
          (divF s.config s.temps.p7 (seriesConst s.config 5040))) ∧
      ∃ t, step s = .next t ∧ sint t.acc = sint s.temps.s ∧ sint t.res = sint s.temps.s) ∧
    (s.seq = .busy (encode (.cos o)) 0 → cosAvailable s.config = true →
      (s.temps.p1 = s.acc ∧ s.temps.p2 = mulF s.config s.temps.p1 s.acc ∧ s.temps.p3 = mulF s.config s.temps.p2 s.acc ∧
        s.temps.p4 = mulF s.config s.temps.p3 s.acc ∧ s.temps.p5 = mulF s.config s.temps.p4 s.acc ∧
        s.temps.p6 = mulF s.config s.temps.p5 s.acc ∧
        s.temps.s = subF s.config
          (addF s.config
            (subF s.config (seriesConst s.config 1) (divF s.config s.temps.p2 (seriesConst s.config 2)))
            (divF s.config s.temps.p4 (seriesConst s.config 24)))
          (divF s.config s.temps.p6 (seriesConst s.config 720))) ∧
      ∃ t, step s = .next t ∧ sint t.acc = sint s.temps.s ∧ sint t.res = sint s.temps.s)

/-- R43: while BUSY, before the completion edge, every port but `cmd_ready` shows what it showed. -/
def Obligations.BusyShowsPreviousCompletion : Prop :=
  ∀ (s : State) (c : Command) (n : Nat), s.rst.headD false = false → s.seq = .busy c (n + 1) →
    ∃ t, step s = .next t ∧ t.seq = .busy c n ∧ t.resPort = s.resPort ∧ t.statusPort = s.statusPort ∧
      t.configPort = s.configPort ∧ t.fcmdPort = s.fcmdPort ∧ t.fopndPort = s.fopndPort ∧
      t.faultPort = s.faultPort ∧ sint t.acc = sint s.acc

/-- R236, R237: a command with `n` edges left completes at edge `n + 1` if `rst` stays 0 so long, and not before. The
list of `rst` levels is the model's (log 4). -/
def Obligations.AcceptedCommandCompletes : Prop :=
  ∀ (n : Nat) (s : State) (c : Command), s.seq = .busy c n → (∀ j ≤ n, s.rst.getD j false = false) →
    (∀ k ≤ n, ∃ u, Host.Core.run core k s = .next u ∧ u.seq = .busy c (n - k) ∧ u.resPort = s.resPort ∧
      u.statusPort = s.statusPort) ∧
    ∃ t, Host.Core.run core (n + 1) s = .next t ∧ t.busy = false

/-- From every state a step answers a next state: the model never stops, which is DEDUCED from R237, R206 and R208
(log 16). -/
def Obligations.EveryStepAnswersNext : Prop :=
  ∀ s : State, ∃ t, step s = .next t

/-- R45: an edge with `rst = 1` (R230) gives every piece of state its reset value, from every state, BUSY and FAULTED
too; meanwhile `cmd_ready = 0`, and CONFIG is unchanged. -/
def Obligations.ResetEdgeGivesResetValues : Prop :=
  ∀ s : State, s.rst.headD false = true →
    s.cmdReady = false ∧
    ∃ t, step s = .next t ∧ sint t.acc = 0 ∧ t.res = 0 ∧ t.statusPort = 0 ∧ t.fcmd = 0 ∧ t.fopnd = 0 ∧
      t.seq = .idle ∧ t.configPort = s.configPort

/-- R45: the reset state of every configuration, and the machine's own, whose configuration is the model's choice
(log 1). -/
def Obligations.ResetStateValues : Prop :=
  (∀ c : Config, (State.resetOf c).acc = 0 ∧ (State.resetOf c).res = 0 ∧ (State.resetOf c).statusPort = 0 ∧
    (State.resetOf c).fcmd = 0 ∧ (State.resetOf c).fopnd = 0 ∧ (State.resetOf c).seq = .idle ∧
    (State.resetOf c).config = c) ∧
  core.reset = State.resetOf Config.d16f16

/-- R36, R41, R200, R206: every step keeps the invariant of the unit's registers. -/
def Obligations.StepKeepsInvariant : Prop :=
  ∀ s t : State, s.Inv → step s = .next t → t.Inv

/-- R45: the reset state of every configuration meets the invariant. -/
def Obligations.ResetMeetsInvariant : Prop :=
  ∀ c : Config, (State.resetOf c).Inv

/-- R66, R217: whatever the latencies and the edges without an offer between them, a host that leaves `rst` at 0 brings an
IDLE unit to an end state, the one that performing its offered commands in order gives; the only offers left are those a faulted
unit no longer accepts. The host's lists are the model's (log 4), and so is the end state of a run of no command
(log 19). -/
def Obligations.RunsAreSequential : Prop :=
  ∀ s : State, s.seq = .idle → (∀ l ∈ s.rst, l = false) →
    ∃ (k : Nat) (t : State), Host.Core.run core k s = .next t ∧ t.isEnd = true ∧
      t = ((s.offers.filterMap id).foldl State.perform s).withInputs t.rst t.offers ∧
      ((t.seq = .idle ∧ t.offers = []) ∨ t.seq = .faulted)

/-- R32, and the model's placing of a command (log 6, log 10): the step after `withFetchWord` is `exec` of the
instruction that `decodeTableWord` reads. -/
def Obligations.FetchWordRunsNext : Prop :=
  ∀ (s : State) (nbits w : Nat) (i : Instr), decodeTableWord nbits w = some i →
    step (s.withFetchWord nbits w) = exec i (s.withFetchWord nbits w).hostEdge
end

