-- ==== Sys2Proof/Laws/Config.lean ====
section
/-! SUPPORT. What every configuration satisfies (spec/00_scope.md R5, R6), and how words of its width behave. -/

namespace Sys2Proof

theorem Config.bounds (c : Config) : 1 ≤ c.D ∧ 1 ≤ c.F ∧ c.D + c.F ≤ 32 := by
  have h := c.ok
  simpa [paramsOk, and_assoc] using h

/-- What `resolve` answers, by the range of its argument (R6). -/
theorem resolve_cases (n : Nat) :
    (n ≤ 8 ∧ resolve n = 8) ∨ (8 < n ∧ n ≤ 16 ∧ resolve n = 16) ∨ (16 < n ∧ n ≤ 32 ∧ resolve n = 32) ∨
      (32 < n ∧ resolve n = 64) := by
  unfold resolve
  split
  · exact .inl ⟨‹_›, rfl⟩
  · split
    · exact .inr (.inl ⟨by omega, ‹_›, rfl⟩)
    · split
      · exact .inr (.inr (.inl ⟨by omega, ‹_›, rfl⟩))
      · exact .inr (.inr (.inr ⟨by omega, rfl⟩))

/-- W is 8, 16 or 32 (R6). -/
theorem Config.W_cases (c : Config) : c.W = 8 ∨ c.W = 16 ∨ c.W = 32 := by
  have hb := c.bounds
  have h := resolve_cases (c.D + c.F)
  unfold Config.W
  omega

/-- Both bit budgets fit in W, so `F <= W - 1` (R6). -/
theorem Config.fits (c : Config) : c.D + c.F ≤ c.W := by
  have hb := c.bounds
  have h := resolve_cases (c.D + c.F)
  unfold Config.W
  omega

theorem Config.W_pos (c : Config) : 0 < c.W := by
  have h := c.W_cases
  omega

theorem Config.W_le (c : Config) : c.W ≤ 32 := by
  have h := c.W_cases
  omega

theorem Config.F_lt_W (c : Config) : c.F < c.W := by
  have h := c.fits
  have hb := c.bounds
  omega

namespace Machine

/-- Narrowing and reading back is the wrap of R12, `Int.bmod`. -/
theorem sint_word (c : Config) (v : Int) : sint (word c.W v) = v.bmod (2 ^ c.W) :=
  BitVec.toInt_ofInt ..

/-- A scaled word reads in the W-bit range (R9). -/
theorem sint_range (c : Config) (a : BitVec c.W) : -(2 ^ (c.W - 1) : Int) ≤ sint a ∧ sint a < 2 ^ (c.W - 1) :=
  ⟨BitVec.le_toInt a, BitVec.toInt_lt⟩

/-- Sign extension to 64 bits keeps the value (R11, R35). -/
theorem sint_sext64 (c : Config) (a : BitVec c.W) : sint (sext64 a) = sint a :=
  BitVec.toInt_signExtend_of_le (by have := c.W_le; omega)

/-- The Q operand of a sign-extended word is the word (R83). -/
theorem operandQ_sext64 (c : Config) (a : BitVec c.W) : operandQ c (sext64 a) = a := by
  have h := c.W_le
  apply BitVec.eq_of_getLsbD_eq
  intro k hk
  simp only [operandQ, sext64, BitVec.getLsbD_setWidth, BitVec.getLsbD_signExtend]
  have h64 : k < 64 := by omega
  simp [hk, h64]

/-- A value in the W-bit range is unchanged by narrowing. -/
theorem sint_word_of_range (c : Config) (v : Int) (h : -(2 ^ (c.W - 1) : Int) ≤ v) (h' : v < 2 ^ (c.W - 1)) :
    sint (word c.W v) = v := by
  have hw := c.W_pos
  have hp : (2 ^ c.W : Int) = 2 * 2 ^ (c.W - 1) := by
    rw [← pow_succ', Nat.sub_add_cancel hw]
  rw [sint_word, Int.bmod_eq_of_le]
  · push_cast
    omega
  · push_cast
    omega

theorem sint_addF (c : Config) (a b : BitVec c.W) : sint (addF c a b) = (sint a + sint b).bmod (2 ^ c.W) :=
  sint_word ..

theorem sint_subF (c : Config) (a b : BitVec c.W) : sint (subF c a b) = (sint a - sint b).bmod (2 ^ c.W) :=
  sint_word ..

theorem sint_mulF (c : Config) (a b : BitVec c.W) :
    sint (mulF c a b) = (mulExact c (sint a) (sint b)).bmod (2 ^ c.W) :=
  sint_word ..

theorem sint_divF (c : Config) (a b : BitVec c.W) :
    sint (divF c a b) = (divExact c (sint a) (sint b)).bmod (2 ^ c.W) :=
  sint_word ..

theorem sint_negF (c : Config) (a : BitVec c.W) : sint (negF c a) = (-sint a).bmod (2 ^ c.W) :=
  sint_word ..

theorem sint_incF (c : Config) (a : BitVec c.W) : sint (incF c a) = (sint a + 2 ^ c.F).bmod (2 ^ c.W) :=
  sint_word ..

theorem sint_decF (c : Config) (a : BitVec c.W) : sint (decF c a) = (sint a - 2 ^ c.F).bmod (2 ^ c.W) :=
  sint_word ..

/-- A Q operand is zero iff it reads as zero. -/
theorem sint_eq_zero (c : Config) (b : BitVec c.W) : sint b = 0 ↔ b = 0 := by
  constructor
  · intro h
    apply BitVec.eq_of_toInt_eq
    simpa using h
  · rintro rfl
    simp

end Machine

end Sys2Proof
end

