-- ==== Sys2Proof/Laws/State.lean ====
section
/-! SUPPORT. One lemma per field per update of the state: no later proof unfolds a record update. -/

namespace Sys2Proof.Machine

@[simp] theorem State.setRes_config (s : State) (r : DataWord) : (s.setRes r).config = s.config := rfl
@[simp] theorem State.setRes_acc (s : State) (r : DataWord) : (s.setRes r).acc = s.acc := rfl
@[simp] theorem State.setRes_res (s : State) (r : DataWord) : (s.setRes r).res = r := rfl
@[simp] theorem State.setRes_status (s : State) (r : DataWord) : (s.setRes r).status = s.status := rfl
@[simp] theorem State.setRes_fcmd (s : State) (r : DataWord) : (s.setRes r).fcmd = s.fcmd := rfl
@[simp] theorem State.setRes_fopnd (s : State) (r : DataWord) : (s.setRes r).fopnd = s.fopnd := rfl
@[simp] theorem State.setRes_seq (s : State) (r : DataWord) : (s.setRes r).seq = s.seq := rfl
@[simp] theorem State.setRes_temps (s : State) (r : DataWord) : (s.setRes r).temps = s.temps := rfl
@[simp] theorem State.setRes_freeCount (s : State) (r : DataWord) : (s.setRes r).freeCount = s.freeCount := rfl
@[simp] theorem State.setRes_rst (s : State) (r : DataWord) : (s.setRes r).rst = s.rst := rfl
@[simp] theorem State.setRes_offers (s : State) (r : DataWord) : (s.setRes r).offers = s.offers := rfl
@[simp] theorem State.setRes_A (s : State) (r : DataWord) : (s.setRes r).A = s.A := rfl

@[simp] theorem State.setAccRes_config (s : State) (v : BitVec s.config.W) (r : DataWord) : (s.setAccRes v r).config = s.config := rfl
@[simp] theorem State.setAccRes_acc (s : State) (v : BitVec s.config.W) (r : DataWord) : (s.setAccRes v r).acc = v := rfl
@[simp] theorem State.setAccRes_res (s : State) (v : BitVec s.config.W) (r : DataWord) : (s.setAccRes v r).res = r := rfl
@[simp] theorem State.setAccRes_status (s : State) (v : BitVec s.config.W) (r : DataWord) : (s.setAccRes v r).status = s.status := rfl
@[simp] theorem State.setAccRes_fcmd (s : State) (v : BitVec s.config.W) (r : DataWord) : (s.setAccRes v r).fcmd = s.fcmd := rfl
@[simp] theorem State.setAccRes_fopnd (s : State) (v : BitVec s.config.W) (r : DataWord) : (s.setAccRes v r).fopnd = s.fopnd := rfl
@[simp] theorem State.setAccRes_seq (s : State) (v : BitVec s.config.W) (r : DataWord) : (s.setAccRes v r).seq = s.seq := rfl
@[simp] theorem State.setAccRes_temps (s : State) (v : BitVec s.config.W) (r : DataWord) : (s.setAccRes v r).temps = s.temps := rfl
@[simp] theorem State.setAccRes_freeCount (s : State) (v : BitVec s.config.W) (r : DataWord) : (s.setAccRes v r).freeCount = s.freeCount := rfl
@[simp] theorem State.setAccRes_rst (s : State) (v : BitVec s.config.W) (r : DataWord) : (s.setAccRes v r).rst = s.rst := rfl
@[simp] theorem State.setAccRes_offers (s : State) (v : BitVec s.config.W) (r : DataWord) : (s.setAccRes v r).offers = s.offers := rfl

@[simp] theorem State.setAcc_config (s : State) (v : BitVec s.config.W) : (s.setAcc v).config = s.config := rfl
@[simp] theorem State.setAcc_acc (s : State) (v : BitVec s.config.W) : (s.setAcc v).acc = v := rfl
@[simp] theorem State.setAcc_res (s : State) (v : BitVec s.config.W) : (s.setAcc v).res = sext64 v := rfl
@[simp] theorem State.setAcc_status (s : State) (v : BitVec s.config.W) : (s.setAcc v).status = s.status := rfl
@[simp] theorem State.setAcc_fcmd (s : State) (v : BitVec s.config.W) : (s.setAcc v).fcmd = s.fcmd := rfl
@[simp] theorem State.setAcc_fopnd (s : State) (v : BitVec s.config.W) : (s.setAcc v).fopnd = s.fopnd := rfl
@[simp] theorem State.setAcc_seq (s : State) (v : BitVec s.config.W) : (s.setAcc v).seq = s.seq := rfl
@[simp] theorem State.setAcc_temps (s : State) (v : BitVec s.config.W) : (s.setAcc v).temps = s.temps := rfl
@[simp] theorem State.setAcc_freeCount (s : State) (v : BitVec s.config.W) : (s.setAcc v).freeCount = s.freeCount := rfl
@[simp] theorem State.setAcc_rst (s : State) (v : BitVec s.config.W) : (s.setAcc v).rst = s.rst := rfl
@[simp] theorem State.setAcc_offers (s : State) (v : BitVec s.config.W) : (s.setAcc v).offers = s.offers := rfl

@[simp] theorem State.setFlags_config (s : State) (e l g : Bool) : (s.setFlags e l g).config = s.config := rfl
@[simp] theorem State.setFlags_acc (s : State) (e l g : Bool) : (s.setFlags e l g).acc = s.acc := rfl
@[simp] theorem State.setFlags_res (s : State) (e l g : Bool) : (s.setFlags e l g).res = s.res := rfl
@[simp] theorem State.setFlags_status (s : State) (e l g : Bool) : (s.setFlags e l g).status = { s.status with eq := e, lt := l, gt := g } := rfl
@[simp] theorem State.setFlags_fcmd (s : State) (e l g : Bool) : (s.setFlags e l g).fcmd = s.fcmd := rfl
@[simp] theorem State.setFlags_fopnd (s : State) (e l g : Bool) : (s.setFlags e l g).fopnd = s.fopnd := rfl
@[simp] theorem State.setFlags_seq (s : State) (e l g : Bool) : (s.setFlags e l g).seq = s.seq := rfl
@[simp] theorem State.setFlags_temps (s : State) (e l g : Bool) : (s.setFlags e l g).temps = s.temps := rfl
@[simp] theorem State.setFlags_freeCount (s : State) (e l g : Bool) : (s.setFlags e l g).freeCount = s.freeCount := rfl
@[simp] theorem State.setFlags_rst (s : State) (e l g : Bool) : (s.setFlags e l g).rst = s.rst := rfl
@[simp] theorem State.setFlags_offers (s : State) (e l g : Bool) : (s.setFlags e l g).offers = s.offers := rfl
@[simp] theorem State.setFlags_A (s : State) (e l g : Bool) : (s.setFlags e l g).A = s.A := rfl

@[simp] theorem State.compare_config (s : State) (a b : Int) : (s.compare a b).config = s.config := rfl
@[simp] theorem State.compare_acc (s : State) (a b : Int) : (s.compare a b).acc = s.acc := rfl
@[simp] theorem State.compare_res (s : State) (a b : Int) : (s.compare a b).res = s.res := rfl
@[simp] theorem State.compare_status (s : State) (a b : Int) : (s.compare a b).status = { s.status with eq := decide (a = b), lt := decide (a < b), gt := decide (a > b) } := rfl
@[simp] theorem State.compare_fcmd (s : State) (a b : Int) : (s.compare a b).fcmd = s.fcmd := rfl
@[simp] theorem State.compare_fopnd (s : State) (a b : Int) : (s.compare a b).fopnd = s.fopnd := rfl
@[simp] theorem State.compare_seq (s : State) (a b : Int) : (s.compare a b).seq = s.seq := rfl
@[simp] theorem State.compare_temps (s : State) (a b : Int) : (s.compare a b).temps = s.temps := rfl
@[simp] theorem State.compare_freeCount (s : State) (a b : Int) : (s.compare a b).freeCount = s.freeCount := rfl
@[simp] theorem State.compare_rst (s : State) (a b : Int) : (s.compare a b).rst = s.rst := rfl
@[simp] theorem State.compare_offers (s : State) (a b : Int) : (s.compare a b).offers = s.offers := rfl
@[simp] theorem State.compare_A (s : State) (a b : Int) : (s.compare a b).A = s.A := rfl

@[simp] theorem State.complete_config (s : State) : (s.complete).config = s.config := rfl
@[simp] theorem State.complete_acc (s : State) : (s.complete).acc = s.acc := rfl
@[simp] theorem State.complete_res (s : State) : (s.complete).res = s.res := rfl
@[simp] theorem State.complete_status (s : State) : (s.complete).status = s.status := rfl
@[simp] theorem State.complete_fcmd (s : State) : (s.complete).fcmd = s.fcmd := rfl
@[simp] theorem State.complete_fopnd (s : State) : (s.complete).fopnd = s.fopnd := rfl
@[simp] theorem State.complete_seq (s : State) : (s.complete).seq = .idle := rfl
@[simp] theorem State.complete_temps (s : State) : (s.complete).temps = s.temps := rfl
@[simp] theorem State.complete_freeCount (s : State) : (s.complete).freeCount = s.freeCount := rfl
@[simp] theorem State.complete_rst (s : State) : (s.complete).rst = s.rst := rfl
@[simp] theorem State.complete_offers (s : State) : (s.complete).offers = s.offers := rfl
@[simp] theorem State.complete_A (s : State) : (s.complete).A = s.A := rfl

@[simp] theorem State.raiseFault_config (s : State) (k : Cause) (c : Command) : (s.raiseFault k c).config = s.config := rfl
@[simp] theorem State.raiseFault_acc (s : State) (k : Cause) (c : Command) : (s.raiseFault k c).acc = s.acc := rfl
@[simp] theorem State.raiseFault_res (s : State) (k : Cause) (c : Command) : (s.raiseFault k c).res = s.res := rfl
@[simp] theorem State.raiseFault_status (s : State) (k : Cause) (c : Command) : (s.raiseFault k c).status = { s.status with fault := true, cause := k } := rfl
@[simp] theorem State.raiseFault_fcmd (s : State) (k : Cause) (c : Command) : (s.raiseFault k c).fcmd = c.cmd := rfl
@[simp] theorem State.raiseFault_fopnd (s : State) (k : Cause) (c : Command) : (s.raiseFault k c).fopnd = c.opnd := rfl
@[simp] theorem State.raiseFault_seq (s : State) (k : Cause) (c : Command) : (s.raiseFault k c).seq = .faulted := rfl
@[simp] theorem State.raiseFault_temps (s : State) (k : Cause) (c : Command) : (s.raiseFault k c).temps = s.temps := rfl
@[simp] theorem State.raiseFault_freeCount (s : State) (k : Cause) (c : Command) : (s.raiseFault k c).freeCount = s.freeCount := rfl
@[simp] theorem State.raiseFault_rst (s : State) (k : Cause) (c : Command) : (s.raiseFault k c).rst = s.rst := rfl
@[simp] theorem State.raiseFault_offers (s : State) (k : Cause) (c : Command) : (s.raiseFault k c).offers = s.offers := rfl
@[simp] theorem State.raiseFault_A (s : State) (k : Cause) (c : Command) : (s.raiseFault k c).A = s.A := rfl

@[simp] theorem State.resetEdge_config (s : State) : (s.resetEdge).config = s.config := rfl
@[simp] theorem State.resetEdge_acc (s : State) : (s.resetEdge).acc = 0 := rfl
@[simp] theorem State.resetEdge_res (s : State) : (s.resetEdge).res = 0 := rfl
@[simp] theorem State.resetEdge_status (s : State) : (s.resetEdge).status = Status.zero := rfl
@[simp] theorem State.resetEdge_fcmd (s : State) : (s.resetEdge).fcmd = 0 := rfl
@[simp] theorem State.resetEdge_fopnd (s : State) : (s.resetEdge).fopnd = 0 := rfl
@[simp] theorem State.resetEdge_seq (s : State) : (s.resetEdge).seq = .idle := rfl
@[simp] theorem State.resetEdge_temps (s : State) : (s.resetEdge).temps = TrigTemps.zero s.config.W := rfl
@[simp] theorem State.resetEdge_freeCount (s : State) : (s.resetEdge).freeCount = s.freeCount + 1 := rfl
@[simp] theorem State.resetEdge_rst (s : State) : (s.resetEdge).rst = s.rst := rfl
@[simp] theorem State.resetEdge_offers (s : State) : (s.resetEdge).offers = s.offers := rfl

@[simp] theorem State.discardTemps_config (s : State) : (s.discardTemps).config = s.config := rfl
@[simp] theorem State.discardTemps_acc (s : State) : (s.discardTemps).acc = s.acc := rfl
@[simp] theorem State.discardTemps_res (s : State) : (s.discardTemps).res = s.res := rfl
@[simp] theorem State.discardTemps_status (s : State) : (s.discardTemps).status = s.status := rfl
@[simp] theorem State.discardTemps_fcmd (s : State) : (s.discardTemps).fcmd = s.fcmd := rfl
@[simp] theorem State.discardTemps_fopnd (s : State) : (s.discardTemps).fopnd = s.fopnd := rfl
@[simp] theorem State.discardTemps_seq (s : State) : (s.discardTemps).seq = s.seq := rfl
@[simp] theorem State.discardTemps_freeCount (s : State) : (s.discardTemps).freeCount = s.freeCount + 1 := rfl
@[simp] theorem State.discardTemps_rst (s : State) : (s.discardTemps).rst = s.rst := rfl
@[simp] theorem State.discardTemps_offers (s : State) : (s.discardTemps).offers = s.offers := rfl
@[simp] theorem State.discardTemps_A (s : State) : (s.discardTemps).A = s.A := rfl

@[simp] theorem State.hostEdge_config (s : State) : (s.hostEdge).config = s.config := rfl
@[simp] theorem State.hostEdge_acc (s : State) : (s.hostEdge).acc = s.acc := rfl
@[simp] theorem State.hostEdge_res (s : State) : (s.hostEdge).res = s.res := rfl
@[simp] theorem State.hostEdge_status (s : State) : (s.hostEdge).status = s.status := rfl
@[simp] theorem State.hostEdge_fcmd (s : State) : (s.hostEdge).fcmd = s.fcmd := rfl
@[simp] theorem State.hostEdge_fopnd (s : State) : (s.hostEdge).fopnd = s.fopnd := rfl
@[simp] theorem State.hostEdge_seq (s : State) : (s.hostEdge).seq = s.seq := rfl
@[simp] theorem State.hostEdge_temps (s : State) : (s.hostEdge).temps = s.temps := rfl
@[simp] theorem State.hostEdge_freeCount (s : State) : (s.hostEdge).freeCount = s.freeCount := rfl
@[simp] theorem State.hostEdge_rst (s : State) : (s.hostEdge).rst = s.rst.tail := rfl
@[simp] theorem State.hostEdge_A (s : State) : (s.hostEdge).A = s.A := rfl

@[simp] theorem State.engineEdge_config (s : State) (c : Command) (pos left : Nat) : (s.engineEdge c pos left).config = s.config := rfl
@[simp] theorem State.engineEdge_acc (s : State) (c : Command) (pos left : Nat) : (s.engineEdge c pos left).acc = s.acc := rfl
@[simp] theorem State.engineEdge_res (s : State) (c : Command) (pos left : Nat) : (s.engineEdge c pos left).res = s.res := rfl
@[simp] theorem State.engineEdge_status (s : State) (c : Command) (pos left : Nat) : (s.engineEdge c pos left).status = s.status := rfl
@[simp] theorem State.engineEdge_fcmd (s : State) (c : Command) (pos left : Nat) : (s.engineEdge c pos left).fcmd = s.fcmd := rfl
@[simp] theorem State.engineEdge_fopnd (s : State) (c : Command) (pos left : Nat) : (s.engineEdge c pos left).fopnd = s.fopnd := rfl
@[simp] theorem State.engineEdge_seq (s : State) (c : Command) (pos left : Nat) : (s.engineEdge c pos left).seq = s.seq := rfl
@[simp] theorem State.engineEdge_temps (s : State) (c : Command) (pos left : Nat) : (s.engineEdge c pos left).temps = s.temps.edge (commandSteps s.config s.acc c) s.freeCount pos left := rfl
@[simp] theorem State.engineEdge_freeCount (s : State) (c : Command) (pos left : Nat) : (s.engineEdge c pos left).freeCount = s.freeCount := rfl
@[simp] theorem State.engineEdge_rst (s : State) (c : Command) (pos left : Nat) : (s.engineEdge c pos left).rst = s.rst := rfl
@[simp] theorem State.engineEdge_offers (s : State) (c : Command) (pos left : Nat) : (s.engineEdge c pos left).offers = s.offers := rfl
@[simp] theorem State.engineEdge_A (s : State) (c : Command) (pos left : Nat) : (s.engineEdge c pos left).A = s.A := rfl

@[simp] theorem State.accept_config (s : State) (c : Command) : (s.accept c).config = s.config := rfl
@[simp] theorem State.accept_acc (s : State) (c : Command) : (s.accept c).acc = s.acc := rfl
@[simp] theorem State.accept_res (s : State) (c : Command) : (s.accept c).res = s.res := rfl
@[simp] theorem State.accept_status (s : State) (c : Command) : (s.accept c).status = s.status := rfl
@[simp] theorem State.accept_fcmd (s : State) (c : Command) : (s.accept c).fcmd = s.fcmd := rfl
@[simp] theorem State.accept_fopnd (s : State) (c : Command) : (s.accept c).fopnd = s.fopnd := rfl
@[simp] theorem State.accept_seq (s : State) (c : Command) : (s.accept c).seq = .busy c (cyclesBefore s.config c.cmd) := rfl
@[simp] theorem State.accept_temps (s : State) (c : Command) : (s.accept c).temps = s.temps.edge (commandSteps s.config s.acc c) s.freeCount 0 (cyclesBefore s.config c.cmd) := rfl
@[simp] theorem State.accept_freeCount (s : State) (c : Command) : (s.accept c).freeCount = s.freeCount := rfl
@[simp] theorem State.accept_rst (s : State) (c : Command) : (s.accept c).rst = s.rst := rfl
@[simp] theorem State.accept_offers (s : State) (c : Command) : (s.accept c).offers = s.offers.tail := rfl
@[simp] theorem State.accept_A (s : State) (c : Command) : (s.accept c).A = s.A := rfl

@[simp] theorem State.countCycle_config (s : State) (c : Command) (left : Nat) : (s.countCycle c left).config = s.config := rfl
@[simp] theorem State.countCycle_acc (s : State) (c : Command) (left : Nat) : (s.countCycle c left).acc = s.acc := rfl
@[simp] theorem State.countCycle_res (s : State) (c : Command) (left : Nat) : (s.countCycle c left).res = s.res := rfl
@[simp] theorem State.countCycle_status (s : State) (c : Command) (left : Nat) : (s.countCycle c left).status = s.status := rfl
@[simp] theorem State.countCycle_fcmd (s : State) (c : Command) (left : Nat) : (s.countCycle c left).fcmd = s.fcmd := rfl
@[simp] theorem State.countCycle_fopnd (s : State) (c : Command) (left : Nat) : (s.countCycle c left).fopnd = s.fopnd := rfl
@[simp] theorem State.countCycle_seq (s : State) (c : Command) (left : Nat) : (s.countCycle c left).seq = .busy c left := rfl
@[simp] theorem State.countCycle_temps (s : State) (c : Command) (left : Nat) : (s.countCycle c left).temps = s.temps.edge (commandSteps s.config s.acc c) s.freeCount s.temps.pos left := rfl
@[simp] theorem State.countCycle_freeCount (s : State) (c : Command) (left : Nat) : (s.countCycle c left).freeCount = s.freeCount := rfl
@[simp] theorem State.countCycle_rst (s : State) (c : Command) (left : Nat) : (s.countCycle c left).rst = s.rst := rfl
@[simp] theorem State.countCycle_offers (s : State) (c : Command) (left : Nat) : (s.countCycle c left).offers = s.offers := rfl
@[simp] theorem State.countCycle_A (s : State) (c : Command) (left : Nat) : (s.countCycle c left).A = s.A := rfl

@[simp] theorem State.withInFlight_config (s : State) (c : Command) : (s.withInFlight c).config = s.config := rfl
@[simp] theorem State.withInFlight_acc (s : State) (c : Command) : (s.withInFlight c).acc = s.acc := rfl
@[simp] theorem State.withInFlight_res (s : State) (c : Command) : (s.withInFlight c).res = s.res := rfl
@[simp] theorem State.withInFlight_status (s : State) (c : Command) : (s.withInFlight c).status = s.status := rfl
@[simp] theorem State.withInFlight_fcmd (s : State) (c : Command) : (s.withInFlight c).fcmd = s.fcmd := rfl
@[simp] theorem State.withInFlight_fopnd (s : State) (c : Command) : (s.withInFlight c).fopnd = s.fopnd := rfl
@[simp] theorem State.withInFlight_seq (s : State) (c : Command) : (s.withInFlight c).seq = .busy c 0 := rfl
@[simp] theorem State.withInFlight_temps (s : State) (c : Command) : (s.withInFlight c).temps = s.temps := rfl
@[simp] theorem State.withInFlight_freeCount (s : State) (c : Command) : (s.withInFlight c).freeCount = s.freeCount := rfl
@[simp] theorem State.withInFlight_rst (s : State) (c : Command) : (s.withInFlight c).rst = [] := rfl
@[simp] theorem State.withInFlight_offers (s : State) (c : Command) : (s.withInFlight c).offers = s.offers := rfl
@[simp] theorem State.withInFlight_A (s : State) (c : Command) : (s.withInFlight c).A = s.A := rfl

@[simp] theorem State.resetOf_config (c : Config) : (State.resetOf c).config = c := rfl
@[simp] theorem State.resetOf_acc (c : Config) : (State.resetOf c).acc = 0 := rfl
@[simp] theorem State.resetOf_res (c : Config) : (State.resetOf c).res = 0 := rfl
@[simp] theorem State.resetOf_status (c : Config) : (State.resetOf c).status = Status.zero := rfl
@[simp] theorem State.resetOf_fcmd (c : Config) : (State.resetOf c).fcmd = 0 := rfl
@[simp] theorem State.resetOf_fopnd (c : Config) : (State.resetOf c).fopnd = 0 := rfl
@[simp] theorem State.resetOf_seq (c : Config) : (State.resetOf c).seq = .idle := rfl
@[simp] theorem State.resetOf_rst (c : Config) : (State.resetOf c).rst = [] := rfl
@[simp] theorem State.resetOf_offers (c : Config) : (State.resetOf c).offers = [] := rfl

end Sys2Proof.Machine
end

