-- ==== Sys2Proof/Laws/Exec.lean ====
section
/-! SUPPORT. What a command and an edge can do, said once: every later proof about `exec` or `step` cites these
inversions instead of unfolding 19 meanings. -/

namespace Sys2Proof.Machine

/-- The state after a completed command: only ACC, RES, the three flags, the temporaries with their counter and SEQ
can differ (spec/10_state.md R44). -/
def State.completedWith (s : State) (a : BitVec s.config.W) (r : DataWord) (e l g : Bool)
    (tm : TrigTemps s.config.W) (n : Nat) : State :=
  { s with
    acc := a
    res := r
    status := { s.status with eq := e, lt := l, gt := g }
    temps := tm
    freeCount := n
    seq := .idle }

/-- The fault a command raises in a state, if any (spec/60_exceptions.md R207). -/
def faultOf (c : Config) : Instr → Option Cause
  | .div o => if sint (operandQ c o) = 0 then some .divZero else none
  | .ldf o => if ldfScaled c o = none then some .cvtRange else none
  | .sin _ => if sinAvailable c then none else some .unsupported
  | .cos _ => if cosAvailable c then none else some .unsupported
  | .nop _ | .ldq _ | .toint _ | .tof _ | .pos _ | .neg _ | .abs _ | .add _ | .sub _ | .mul _
  | .inc _ | .dec _ | .incp _ | .decp _ | .cmp _ => none

/-- A command that raises no fault completes, and only a CMP can change a flag. -/
theorem exec_of_no_fault (i : Instr) (s : State) (h : faultOf s.config i = none) :
    ∃ a r e l g tm n, exec i s = .next (s.completedWith a r e l g tm n) ∧
      ((∀ o, i ≠ .cmp o) → e = s.status.eq ∧ l = s.status.lt ∧ g = s.status.gt) ∧
      (¬(e = true ∧ l = true) ∧ ¬(e = true ∧ g = true) ∧ ¬(l = true ∧ g = true) ∨
        e = s.status.eq ∧ l = s.status.lt ∧ g = s.status.gt) := by
  cases i with
  | cmp o =>
    refine ⟨_, _, _, _, _, _, _, rfl, fun h' => absurd rfl (h' o), .inl ?_⟩
    simp only [decide_eq_true_eq]
    omega
  | ldf o =>
    simp only [faultOf, ite_eq_right_iff, reduceCtorEq, imp_false] at h
    obtain ⟨v, hv⟩ := Option.ne_none_iff_exists'.1 h
    have hx : exec (.ldf o) s = .next (s.setAcc (word s.config.W v)).complete := by
      simp only [exec, execLdf, hv]
    exact ⟨_, _, _, _, _, s.temps, s.freeCount, hx, fun _ => ⟨rfl, rfl, rfl⟩, .inr ⟨rfl, rfl, rfl⟩⟩
  | div o =>
    simp only [faultOf, ite_eq_right_iff, reduceCtorEq, imp_false] at h
    refine ⟨_, _, _, _, _, _, _, (if_neg h).trans rfl, fun _ => ⟨rfl, rfl, rfl⟩, .inr ⟨rfl, rfl, rfl⟩⟩
  | sin o =>
    simp only [faultOf, ite_eq_left_iff, reduceCtorEq, imp_false, Bool.not_eq_true, Bool.not_eq_false] at h
    refine ⟨_, _, _, _, _, _, _, (if_pos h).trans rfl, fun _ => ⟨rfl, rfl, rfl⟩, .inr ⟨rfl, rfl, rfl⟩⟩
  | cos o =>
    simp only [faultOf, ite_eq_left_iff, reduceCtorEq, imp_false, Bool.not_eq_true, Bool.not_eq_false] at h
    refine ⟨_, _, _, _, _, _, _, (if_pos h).trans rfl, fun _ => ⟨rfl, rfl, rfl⟩, .inr ⟨rfl, rfl, rfl⟩⟩
  | _ => exact ⟨_, _, _, _, _, _, _, rfl, fun _ => ⟨rfl, rfl, rfl⟩, .inr ⟨rfl, rfl, rfl⟩⟩

/-- A command that raises a fault does the fault entry and nothing else (R206). -/
theorem exec_of_fault (i : Instr) (s : State) (k : Cause) (h : faultOf s.config i = some k) :
    exec i s = .next (s.raiseFault k (encode i)) := by
  cases i with
  | ldf o =>
    simp only [faultOf, Option.ite_none_right_eq_some, Option.some.injEq] at h
    obtain ⟨hn, rfl⟩ := h
    simp only [exec, execLdf, hn]
  | div o =>
    simp only [faultOf, Option.ite_none_right_eq_some, Option.some.injEq] at h
    obtain ⟨hn, rfl⟩ := h
    exact if_pos hn
  | sin o =>
    simp only [faultOf, Option.ite_none_left_eq_some, Option.some.injEq] at h
    obtain ⟨hn, rfl⟩ := h
    exact if_neg hn
  | cos o =>
    simp only [faultOf, Option.ite_none_left_eq_some, Option.some.injEq] at h
    obtain ⟨hn, rfl⟩ := h
    exact if_neg hn
  | _ => cases h

/-- The causes a command can raise (R200, R207). -/
theorem faultOf_cases (c : Config) (i : Instr) (k : Cause) (h : faultOf c i = some k) :
    (∃ o, i = .div o ∧ k = .divZero ∧ operandQ c o = 0) ∨
    (∃ o, i = .ldf o ∧ k = .cvtRange ∧ ldfScaled c o = none) ∨
    (∃ o, i = .sin o ∧ k = .unsupported ∧ sinAvailable c = false) ∨
    (∃ o, i = .cos o ∧ k = .unsupported ∧ cosAvailable c = false) := by
  cases i with
  | ldf o =>
    simp only [faultOf, Option.ite_none_right_eq_some, Option.some.injEq] at h
    exact .inr (.inl ⟨o, rfl, h.2.symm, h.1⟩)
  | div o =>
    simp only [faultOf, Option.ite_none_right_eq_some, Option.some.injEq] at h
    exact .inl ⟨o, rfl, h.2.symm, (sint_eq_zero c _).1 h.1⟩
  | sin o =>
    simp only [faultOf, Option.ite_none_left_eq_some, Option.some.injEq] at h
    exact .inr (.inr (.inl ⟨o, rfl, h.2.symm, by simpa using h.1⟩))
  | cos o =>
    simp only [faultOf, Option.ite_none_left_eq_some, Option.some.injEq] at h
    exact .inr (.inr (.inr ⟨o, rfl, h.2.symm, by simpa using h.1⟩))
  | _ => cases h

/-- What one rising edge does, by the pins and SEQ (spec/10_state.md R42; spec/70_reset_and_hazards.md R230). -/
theorem step_of_rst (s : State) (h : s.rstPin = true) : step s = .next s.hostEdge.resetEdge := if_pos h

theorem step_of_no_rst (s : State) (h : s.rstPin = false) : step s = unitEdge s :=
  if_neg (by simp [h])

theorem unitEdge_idle_offer (s : State) (c : Command) (h : s.seq = .idle) (ho : s.offerPin = some c) :
    unitEdge s = .next (s.hostEdge.accept c) := by
  simp only [unitEdge, h, ho]

theorem unitEdge_idle_none (s : State) (h : s.seq = .idle) (ho : s.offerPin = none) :
    unitEdge s = .next s.hostEdge := by
  simp only [unitEdge, h, ho]

theorem unitEdge_busy_succ (s : State) (c : Command) (n : Nat) (h : s.seq = .busy c (n + 1)) :
    unitEdge s = .next (s.hostEdge.countCycle c n) := by
  simp only [unitEdge, h]

theorem unitEdge_busy_zero (s : State) (c : Command) (h : s.seq = .busy c 0) :
    unitEdge s = execute c s.hostEdge := by
  simp only [unitEdge, h]

theorem unitEdge_faulted (s : State) (h : s.seq = .faulted) : unitEdge s = .next s.hostEdge := by
  simp only [unitEdge, h]

/-- Every command gives a next state. -/
theorem exec_next (i : Instr) (s : State) : ∃ t, exec i s = .next t := by
  cases hf : faultOf s.config i with
  | none =>
    obtain ⟨_, _, _, _, _, _, _, hx, -⟩ := exec_of_no_fault i s hf
    exact ⟨_, hx⟩
  | some k => exact ⟨_, exec_of_fault i s k hf⟩

/-- An accepted command pair, legal or not, gives a next state at its completion edge. -/
theorem execute_next (c : Command) (s : State) : ∃ t, execute c s = .next t := by
  unfold execute
  split
  · exact exec_next _ _
  · exact ⟨_, rfl⟩

/-- A run goes on from the state its first step answers. -/
theorem run_succ_of_next (k : Nat) (s t : State) (h : step s = .next t) :
    Host.Core.run core (k + 1) s = Host.Core.run core k t := by
  have h' : core.step s = .next t := h
  simp only [Host.Core.run, h']

@[simp] theorem completesMore_nil (c : Config) (rs : List Bool) : completesMore c rs [] = false := by
  cases rs with
  | nil => rfl
  | cons r rs => cases r <;> rfl

/-- What the host still offers after an edge that accepts nothing. -/
theorem hostEdge_offers (s : State) :
    s.hostEdge.offers = if s.offers.head? = some none then s.offers.tail else s.offers := by
  simp only [State.hostEdge]
  split
  · simp [*]
  · rename_i h
    cases ho : s.offers with
    | nil => simp
    | cons x xs =>
      cases x with
      | none => exact absurd ho (h xs)
      | some c => simp

@[simp] theorem State.withInputs_config (s : State) (rs : List Bool) (os : List (Option Command)) :
    (s.withInputs rs os).config = s.config := rfl
@[simp] theorem State.withInputs_acc (s : State) (rs : List Bool) (os : List (Option Command)) :
    (s.withInputs rs os).acc = s.acc := rfl
@[simp] theorem State.withInputs_res (s : State) (rs : List Bool) (os : List (Option Command)) :
    (s.withInputs rs os).res = s.res := rfl
@[simp] theorem State.withInputs_status (s : State) (rs : List Bool) (os : List (Option Command)) :
    (s.withInputs rs os).status = s.status := rfl
@[simp] theorem State.withInputs_fcmd (s : State) (rs : List Bool) (os : List (Option Command)) :
    (s.withInputs rs os).fcmd = s.fcmd := rfl
@[simp] theorem State.withInputs_fopnd (s : State) (rs : List Bool) (os : List (Option Command)) :
    (s.withInputs rs os).fopnd = s.fopnd := rfl
@[simp] theorem State.withInputs_seq (s : State) (rs : List Bool) (os : List (Option Command)) :
    (s.withInputs rs os).seq = s.seq := rfl
@[simp] theorem State.withInputs_temps (s : State) (rs : List Bool) (os : List (Option Command)) :
    (s.withInputs rs os).temps = s.temps := rfl
@[simp] theorem State.withInputs_freeCount (s : State) (rs : List Bool) (os : List (Option Command)) :
    (s.withInputs rs os).freeCount = s.freeCount := rfl
@[simp] theorem State.withInputs_rst (s : State) (rs : List Bool) (os : List (Option Command)) :
    (s.withInputs rs os).rst = rs := rfl
@[simp] theorem State.withInputs_offers (s : State) (rs : List Bool) (os : List (Option Command)) :
    (s.withInputs rs os).offers = os := rfl

/-- `s` after a completed command that left `a` in ACC and `r` in RES. Results of primitive commands are stated in
words of the width of `s`, so that no width changes along a sequence of commands. -/
def State.holding (s : State) (a : BitVec s.config.W) (r : DataWord) : State :=
  { s with acc := a, res := r, seq := .idle }

@[simp] theorem State.holding_res (s : State) (a : BitVec s.config.W) (r : DataWord) : (s.holding a r).res = r := rfl

theorem after_ldq (s : State) (x : BitVec s.config.W) : s.after (.ldq (sext64 x)) = s.holding x (sext64 x) := by
  show s.holding (operandQ s.config (sext64 x)) (sext64 (operandQ s.config (sext64 x))) = _
  rw [operandQ_sext64]

theorem holding_after_ldq (s : State) (a : BitVec s.config.W) (r : DataWord) (x : BitVec s.config.W) :
    (s.holding a r).after (.ldq (sext64 x)) = s.holding x (sext64 x) := by
  show s.holding (operandQ s.config (sext64 x)) (sext64 (operandQ s.config (sext64 x))) = _
  rw [operandQ_sext64]

theorem holding_after_mul (s : State) (a : BitVec s.config.W) (r : DataWord) (x : BitVec s.config.W) :
    (s.holding a r).after (.mul (sext64 x)) = s.holding (mulF s.config a x) (sext64 (mulF s.config a x)) := by
  show s.holding (mulF s.config a (operandQ s.config (sext64 x))) (sext64 (mulF s.config a (operandQ s.config (sext64 x)))) = _
  rw [operandQ_sext64]

theorem holding_after_sub (s : State) (a : BitVec s.config.W) (r : DataWord) (x : BitVec s.config.W) :
    (s.holding a r).after (.sub (sext64 x)) = s.holding (subF s.config a x) (sext64 (subF s.config a x)) := by
  show s.holding (subF s.config a (operandQ s.config (sext64 x))) (sext64 (subF s.config a (operandQ s.config (sext64 x)))) = _
  rw [operandQ_sext64]

theorem holding_after_add (s : State) (a : BitVec s.config.W) (r : DataWord) (x : BitVec s.config.W) :
    (s.holding a r).after (.add (sext64 x)) = s.holding (addF s.config a x) (sext64 (addF s.config a x)) := by
  show s.holding (addF s.config a (operandQ s.config (sext64 x))) (sext64 (addF s.config a (operandQ s.config (sext64 x)))) = _
  rw [operandQ_sext64]

theorem after_div (s : State) (o : DataWord) (h : sint (operandQ s.config o) ≠ 0) :
    s.after (.div o) = (s.setAcc (divF s.config s.acc (operandQ s.config o))).complete := by
  simp only [State.after, exec, execDiv, if_neg h]

theorem holding_after_div (s : State) (a : BitVec s.config.W) (r : DataWord) (x : BitVec s.config.W) (h : sint x ≠ 0) :
    (s.holding a r).after (.div (sext64 x)) = s.holding (divF s.config a x) (sext64 (divF s.config a x)) := by
  have hx : sint (operandQ s.config (sext64 x)) ≠ 0 := by rwa [operandQ_sext64]
  rw [after_div (s.holding a r) (sext64 x) hx]
  show s.holding (divF s.config a (operandQ s.config (sext64 x))) (sext64 (divF s.config a (operandQ s.config (sext64 x)))) = _
  rw [operandQ_sext64]

end Sys2Proof.Machine
end

