-- ==== Sys2Proof/Laws/Engine.lean ====
section
/-! SUPPORT. What the steps of the sine and cosine engine compute (spec/43_trig.md R182 to R184), and that a command in
flight completes the same whatever its temporaries hold. -/

namespace Sys2Proof.Machine

/-- The value of SIN written out (R183). -/
theorem sinSeries_eq (c : Config) (x : BitVec c.W) :
    sinSeries c x =
      let p2 := mulF c x x
      let p3 := mulF c p2 x
      let p5 := mulF c (mulF c p3 x) x
      let p7 := mulF c (mulF c p5 x) x
      subF c (addF c (subF c x (divF c p3 (seriesConst c 6))) (divF c p5 (seriesConst c 120)))
        (divF c p7 (seriesConst c 5040)) := rfl

/-- The value of COS written out (R184). -/
theorem cosSeries_eq (c : Config) (x : BitVec c.W) :
    cosSeries c x =
      let p2 := mulF c x x
      let p4 := mulF c (mulF c p2 x) x
      let p6 := mulF c (mulF c p4 x) x
      subF c (addF c (subF c (seriesConst c 1) (divF c p2 (seriesConst c 2))) (divF c p4 (seriesConst c 24)))
        (divF c p6 (seriesConst c 720)) := rfl

/-- All steps of SIN leave its value in `s`, whatever the temporaries held. -/
theorem runSteps_sinSteps_s (c : Config) (x : BitVec c.W) (t : TrigTemps c.W) :
    (runSteps (sinSteps c x) t).s = sinSeries c x := rfl

/-- All steps of COS leave its value in `s`, whatever the temporaries held. -/
theorem runSteps_cosSteps_s (c : Config) (x : BitVec c.W) (t : TrigTemps c.W) :
    (runSteps (cosSteps c x) t).s = cosSeries c x := rfl

theorem runSteps_append {w : Nat} (fs gs : List (TrigTemps w → TrigTemps w)) (t : TrigTemps w) :
    runSteps (fs ++ gs) t = runSteps gs (runSteps fs t) :=
  List.foldl_append ..

/-- Steps that do not look at `pos` can be given any `pos` before or after them. -/
theorem runSteps_pos {w : Nat} (fs : List (TrigTemps w → TrigTemps w))
    (h : ∀ f ∈ fs, ∀ (t : TrigTemps w) (n : Nat), f { t with pos := n } = { f t with pos := n })
    (t : TrigTemps w) (n : Nat) : runSteps fs { t with pos := n } = { runSteps fs t with pos := n } := by
  induction fs generalizing t with
  | nil => rfl
  | cons f fs ih =>
    show runSteps fs (f { t with pos := n }) = { runSteps fs (f t) with pos := n }
    rw [h f List.mem_cons_self, ih fun g hg => h g (List.mem_cons_of_mem f hg)]

/-- The steps of a command do not look at `pos`. -/
theorem commandSteps_pos (c : Config) (x : BitVec c.W) (cmd : Command) :
    ∀ f ∈ commandSteps c x cmd, ∀ (t : TrigTemps c.W) (n : Nat), f { t with pos := n } = { f t with pos := n } := by
  have hs : ∀ f ∈ sinSteps c x, ∀ (t : TrigTemps c.W) (n : Nat), f { t with pos := n } = { f t with pos := n } := by
    simp [sinSteps]
  have hc : ∀ f ∈ cosSteps c x, ∀ (t : TrigTemps c.W) (n : Nat), f { t with pos := n } = { f t with pos := n } := by
    simp [cosSteps]
  unfold commandSteps
  cases decode cmd with
  | error e => simp
  | ok i =>
    cases i with
    | sin o =>
      simp only [engineSteps]
      split
      · exact hs
      · simp
    | cos o =>
      simp only [engineSteps]
      split
      · exact hc
      · simp
    | _ => simp [engineSteps]

/-- A command without steps leaves the temporaries as they are. -/
@[simp] theorem TrigTemps.edge_nil {w : Nat} (t : TrigTemps w) (n pos left : Nat) : t.edge [] n pos left = t := rfl

/-- What the engine's edge does to a command with steps: some number of them from its place, in the last cycle all. -/
theorem TrigTemps.edge_of_steps {w : Nat} (t : TrigTemps w) (steps : List (TrigTemps w → TrigTemps w))
    (n pos left : Nat) (h : steps ≠ []) :
    ∃ k, t.edge steps n pos left = TrigTemps.advance { t with pos := pos } steps k ∧ (left = 0 → k = steps.length) := by
  refine ⟨enginePace n steps.length left, if_neg (by simpa using h), fun h0 => if_pos h0⟩

/-- Going on from the state after the first `pos` steps gives the state after more of them. -/
theorem TrigTemps.advance_of_take {w : Nat} (steps : List (TrigTemps w → TrigTemps w)) (t t0 : TrigTemps w) (k : Nat)
    (h : t = runSteps (steps.take t.pos) t0)
    (hp : ∀ f ∈ steps, ∀ (t : TrigTemps w) (n : Nat), f { t with pos := n } = { f t with pos := n }) :
    t.advance steps k = runSteps (steps.take (t.advance steps k).pos) { t0 with pos := (t.advance steps k).pos } := by
  have hpos : (t.advance steps k).pos = min (t.pos + k) steps.length := rfl
  have htake : steps.take (min (t.pos + k) steps.length) = steps.take t.pos ++ (steps.drop t.pos).take k := by
    rw [← List.take_take, List.take_length, List.take_add]
  rw [hpos, htake, runSteps_pos _ (fun f hf => hp f (by
    rcases List.mem_append.1 hf with h | h
    · exact List.mem_of_mem_take h
    · exact List.mem_of_mem_drop (List.mem_of_mem_take h))), runSteps_append, ← h]
  rfl

/-- An available SIN or COS completes the same whatever its temporaries held. -/
theorem execute_of_steps (c : Command) (s : State) (tm : TrigTemps s.config.W)
    (h : commandSteps s.config s.acc c ≠ []) : execute c { s with temps := tm } = execute c s := by
  unfold execute
  unfold commandSteps at h
  cases hd : decode c with
  | error e => simp [hd] at h
  | ok i =>
    simp only [hd] at h
    cases i with
    | sin o =>
      have ha : sinAvailable s.config = true := by
        by_contra hn
        simp [engineSteps, hn] at h
      exact (if_pos ha).trans (if_pos ha).symm
    | cos o =>
      have ha : cosAvailable s.config = true := by
        by_contra hn
        simp [engineSteps, hn] at h
      exact (if_pos ha).trans (if_pos ha).symm
    | _ => simp [engineSteps] at h

/-- The engine's edges do not change what the command in flight does at its completion edge. -/
theorem execute_engineEdge (c : Command) (s : State) (pos left : Nat) :
    execute c (s.engineEdge c pos left) = execute c s := by
  by_cases h : commandSteps s.config s.acc c = []
  · unfold State.engineEdge
    rw [h, TrigTemps.edge_nil]
  · exact execute_of_steps c s _ h

end Sys2Proof.Machine
end

