-- ==== Sys2Proof/Laws/Float.lean ====
section
/-! SUPPORT. The spec lemmas of the binary64 functions and of truncation (spec/00_scope.md R14;
spec/40_construct_extract.md R102). -/

namespace Sys2Proof.Machine

theorem truncRat_intCast (n : Int) : truncRat (n : ℚ) = n := by
  unfold truncRat
  split <;> simp

/-- Rounding a quotient of integers toward zero is `trunc_div` (R12). -/
theorem truncRat_intCast_div (n : Int) (d : Nat) (hd : 0 < d) : truncRat ((n : ℚ) / d) = n.tdiv d := by
  have hdq : (0 : ℚ) < d := by exact_mod_cast hd
  unfold truncRat
  split
  · rename_i h
    have hn : 0 ≤ n := by
      by_contra hh
      have hlt : (n : ℚ) < 0 := by exact_mod_cast not_le.1 hh
      exact absurd h (not_le.2 (div_neg_of_neg_of_pos hlt hdq))
    rw [Rat.floor_intCast_div_natCast, Int.tdiv_eq_ediv_of_nonneg hn]
  · rename_i h
    have hn : n < 0 := by
      by_contra hh
      have hle : (0 : ℚ) ≤ n := by exact_mod_cast not_lt.1 hh
      exact h (by positivity)
    have e : (n : ℚ) / d = -(((-n : Int) : ℚ) / d) := by
      push_cast
      ring
    rw [e, Int.ceil_neg, Rat.floor_intCast_div_natCast,
      ← Int.tdiv_eq_ediv_of_nonneg (by omega : (0 : Int) ≤ -n), Int.neg_tdiv, neg_neg]

/-- `truncScaled` is the exact product rounded toward zero (R102). -/
theorem truncScaled_eq_truncRat (neg : Bool) (m : Nat) (e : Int) :
    truncScaled neg m e = truncRat ((if neg then -1 else 1) * (m : ℚ) * (2 : ℚ) ^ e) := by
  have hs : (if neg then -1 else 1 : ℚ) * m = (((if neg then -(m : Int) else m) : Int) : ℚ) := by cases neg <;> simp
  rw [hs]
  cases e with
  | ofNat n =>
    have hq : (((if neg then -(m : Int) else m) : Int) : ℚ) * (2 : ℚ) ^ (Int.ofNat n)
        = (((if neg then -(m : Int) else m) * 2 ^ n : Int) : ℚ) := by
      push_cast
      simp
    rw [hq, truncRat_intCast]
    cases neg <;> simp [truncScaled]
  | negSucc n =>
    have hq : (((if neg then -(m : Int) else m) : Int) : ℚ) * (2 : ℚ) ^ (Int.negSucc n)
        = (((if neg then -(m : Int) else m) : Int) : ℚ) / ((2 ^ (n + 1) : Nat) : ℚ) := by
      rw [zpow_negSucc, div_eq_mul_inv]
      push_cast
      rfl
    rw [hq, truncRat_intCast_div _ _ (by positivity)]
    cases neg <;> simp [truncScaled, Nat.shiftRight_eq_div_pow, Int.neg_tdiv]

/-- LDF's value is the operand's real value times `2^F`, rounded toward zero, where that is in range (R102, R203). -/
theorem ldfScaled_eq (c : Config) (o : DataWord) :
    ldfScaled c o =
      match (f64Value o).real with
      | none => none
      | some x => if inRange c (truncRat (x * 2 ^ c.F)) then some (truncRat (x * 2 ^ c.F)) else none := by
  unfold ldfScaled
  cases h : f64Value o with
  | nan => rfl
  | inf n => rfl
  | finite neg m e =>
    have hv : truncScaled neg m (e + c.F) = truncRat ((if neg then -1 else 1) * (m : ℚ) * (2 : ℚ) ^ e * 2 ^ c.F) := by
      rw [truncScaled_eq_truncRat, zpow_add₀ (by norm_num), zpow_natCast, mul_assoc _ ((2 : ℚ) ^ e)]
    simp only [F64.real, hv]
    generalize truncRat _ = v
    unfold inRange
    by_cases h1 : v < -2 ^ (c.W - 1) ∨ v > 2 ^ (c.W - 1) - 1
    · rw [if_pos h1, if_neg (by omega)]
    · rw [if_neg h1, if_pos (by omega)]

/-- The three fields of a binary64 word put together from them (R14). -/
theorem f64_fields_of_append (s : Bool) (e : BitVec 11) (f : BitVec 52) :
    f64Sign (BitVec.ofBool s ++ e ++ f) = s ∧ f64Exp (BitVec.ofBool s ++ e ++ f) = e.toNat ∧
      f64Frac (BitVec.ofBool s ++ e ++ f) = f.toNat := by
  have hg : ∀ k, (BitVec.ofBool s ++ e ++ f : BitVec 64).getLsbD k =
      if k < 52 then f.getLsbD k else if k < 63 then e.getLsbD (k - 52) else (BitVec.ofBool s).getLsbD (k - 63) := by
    intro k
    show BitVec.getLsbD ((BitVec.ofBool s ++ e) ++ f) k = _
    rw [BitVec.getLsbD_append, BitVec.getLsbD_append]
    by_cases h1 : k < 52
    · simp [h1]
    · by_cases h2 : k < 63
      · simp [h1, h2, show k - 52 < 11 by omega]
      · simp [h1, h2, show ¬k - 52 < 11 by omega, show k - 52 - 11 = k - 63 by omega]
  refine ⟨?_, ?_, ?_⟩
  · unfold f64Sign
    rw [hg]
    simp
  · unfold f64Exp
    congr 1
    apply BitVec.eq_of_getLsbD_eq
    intro k hk
    rw [BitVec.getLsbD_extractLsb', hg]
    simp [hk, show ¬52 + k < 52 by omega, show 52 + k < 63 by omega]
  · unfold f64Frac
    congr 1
    apply BitVec.eq_of_getLsbD_eq
    intro k hk
    rw [BitVec.getLsbD_extractLsb', hg]
    simp [hk]

end Sys2Proof.Machine
end

