-- ==== Sys2Proof/Laws/PerInstr.lean ====
section
/-! SUPPORT. The per-instruction family EncodedForm: the encoded pair of a command has a clear reserved field, the
opcode byte in its opcode field, and the whole operand word (spec/30_encoding.md R80, R82). -/

namespace Sys2Proof.Laws.EncodedForm

/-- The encoding of `i` has the form C of R80. -/
def Statement (i : Instr) : Prop :=
  rsvField (encode i).cmd = 0 ∧ opField (encode i).cmd = i.opcode ∧ (encode i).opnd = i.operand

/-- The form C holds of any opcode byte put at the bottom of a command word. -/
theorem fields_of_zeroExtend (b : BitVec 8) :
    rsvField (b.zeroExtend 32) = 0 ∧ opField (b.zeroExtend 32) = b := by
  constructor
  · apply BitVec.eq_of_getLsbD_eq
    intro k hk
    simp [rsvField]
  · apply BitVec.eq_of_getLsbD_eq
    intro k hk
    simp [opField, BitVec.getLsbD_setWidth, hk]
    omega

/-- Every command's encoding has the form C. -/
theorem of_encode (i : Instr) : Statement i :=
  ⟨(fields_of_zeroExtend i.opcode).1, (fields_of_zeroExtend i.opcode).2, rfl⟩

theorem nop (opnd : DataWord) : Statement (.nop opnd) := of_encode _
theorem ldq (opnd : DataWord) : Statement (.ldq opnd) := of_encode _
theorem ldf (opnd : DataWord) : Statement (.ldf opnd) := of_encode _
theorem toint (opnd : DataWord) : Statement (.toint opnd) := of_encode _
theorem tof (opnd : DataWord) : Statement (.tof opnd) := of_encode _
theorem pos (opnd : DataWord) : Statement (.pos opnd) := of_encode _
theorem neg (opnd : DataWord) : Statement (.neg opnd) := of_encode _
theorem abs (opnd : DataWord) : Statement (.abs opnd) := of_encode _
theorem add (opnd : DataWord) : Statement (.add opnd) := of_encode _
theorem sub (opnd : DataWord) : Statement (.sub opnd) := of_encode _
theorem mul (opnd : DataWord) : Statement (.mul opnd) := of_encode _
theorem div (opnd : DataWord) : Statement (.div opnd) := of_encode _
theorem inc (opnd : DataWord) : Statement (.inc opnd) := of_encode _
theorem dec (opnd : DataWord) : Statement (.dec opnd) := of_encode _
theorem incp (opnd : DataWord) : Statement (.incp opnd) := of_encode _
theorem decp (opnd : DataWord) : Statement (.decp opnd) := of_encode _
theorem cmp (opnd : DataWord) : Statement (.cmp opnd) := of_encode _
theorem sin (opnd : DataWord) : Statement (.sin opnd) := of_encode _
theorem cos (opnd : DataWord) : Statement (.cos opnd) := of_encode _

end Sys2Proof.Laws.EncodedForm
end

