-- ==== Sys2Proof/Machine/Assembler.lean ====
section
/-! DEFINITION. The assembler (spec/30_encoding.md R90 to R93): lines of text, operand literals, pseudo-instructions
and the binary form of a program. It writes programs for the host; the unit never sees it (R92). Text is a list of
characters. -/

namespace Sys2Proof.Machine

/-- The mnemonics of R82. -/
inductive Mnemonic where
  | nop | ldq | ldf | toint | tof | pos | neg | abs | add | sub | mul | div
  | inc | dec | incp | decp | cmp | sin | cos
deriving DecidableEq, Repr

/-- The command a mnemonic names, with its operand word. -/
def Mnemonic.instr : Mnemonic → DataWord → Instr
  | .nop => .nop | .ldq => .ldq | .ldf => .ldf | .toint => .toint | .tof => .tof
  | .pos => .pos | .neg => .neg | .abs => .abs | .add => .add | .sub => .sub | .mul => .mul | .div => .div
  | .inc => .inc | .dec => .dec | .incp => .incp | .decp => .decp | .cmp => .cmp | .sin => .sin | .cos => .cos

/-- A decimal real `(-1)^neg * num / 10^places`. -/
structure Decimal where
  neg    : Bool
  num    : Nat
  places : Nat
deriving DecidableEq, Repr

/-- Operand literals (R91): `q:<int>`, `#<real>`, `f:<real>`, `f:inf`, `f:-inf`, `f:nan` and `f:0x<16 digits>`. -/
inductive Literal where
  | q (n : Int)
  | real (r : Decimal)
  | f64Real (r : Decimal)
  | f64Inf (neg : Bool)
  | f64Nan
  | f64Word (w : DataWord)
deriving DecidableEq, Repr

/-- A line of assembly: a command (R90) or a pseudo-instruction (R92); `opR m a b` is `OP.r a, b` or `CMP.r a, b`. -/
inductive Line where
  | command (m : Mnemonic) (operand : Option Literal)
  | clr
  | ldone
  | opR (m : Mnemonic) (a b : Literal)
  | set (a : Literal)
deriving DecidableEq, Repr

/-- Assembly errors (R91, R92), and the malformed lines R90 has no reading for. -/
inductive AsmError where
  | unknownMnemonic | badLiteral | missingOperand | extraOperand | wrongForm
  | qOutOfRange | realOutOfRange | oneNotRepresentable | notAnOpR
deriving DecidableEq, Repr

/-- `n / d` rounded to the nearest integer, ties to even (R91). -/
def roundHalfEven (n d : Nat) : Nat :=
  let q := n / d
  let r := 2 * (n % d)
  if r < d then q else if d < r then q + 1 else if q % 2 = 0 then q else q + 1

/-- The binary64 word nearest to the positive real `n / d`, ties to even, without its sign bit (R91, R14). The
exponent `e` puts the rounded significand in `[2^52, 2^53]`, or is -1074 for a subnormal; past the largest finite
value the word is infinity. -/
def nearestF64 (n d : Nat) : Nat :=
  let l0 : Int := (Nat.log2 n : Int) - Nat.log2 d
  let below := match l0 with
    | .ofNat k => decide (n < d * 2 ^ k)
    | .negSucc k => decide (n * 2 ^ (k + 1) < d)
  let l := if below then l0 - 1 else l0
  let e := max (-1074) (l - 52)
  let q := match e with
    | .ofNat k => roundHalfEven n (d * 2 ^ k)
    | .negSucc k => roundHalfEven (n * 2 ^ (k + 1)) d
  min ((e + 1074).toNat * 2 ^ 52 + q) (2047 * 2 ^ 52)

/-- The binary64 word of a decimal real (R91); a real that rounds to zero is `+0.0` (R14; log 13). -/
def Decimal.f64Word (r : Decimal) : DataWord :=
  let w := if r.num = 0 then 0 else nearestF64 r.num (10 ^ r.places)
  if w = 0 then 0 else BitVec.ofBool r.neg ++ BitVec.ofNat 63 w

/-- The operand word a literal stands for in a command of operand form `form` (R91). DESIGN CHOICE (log 13): R91 keeps
`#` to form Q and `f:` to form F64 but says nothing of `q:` with form F64; here `q:` in an LDF is an error. -/
def Literal.opnd (c : Config) (form : OperandForm) : Literal → Except AsmError DataWord
  | .q n =>
    if form ≠ .q then .error .wrongForm
    else if qLiteralOk c.W n then .ok (sext64 (word c.W n)) else .error .qOutOfRange
  | .real r =>
    if form ≠ .q then .error .wrongForm
    else match ldfScaled c r.f64Word with
      | some v => .ok (sext64 (word c.W v))
      | none => .error .realOutOfRange
  | .f64Real r => if form = .f64 then .ok r.f64Word else .error .wrongForm
  | .f64Inf neg => if form = .f64 then .ok (if neg then 0xFFF0000000000000 else 0x7FF0000000000000) else .error .wrongForm
  | .f64Nan => if form = .f64 then .ok 0x7FF8000000000000 else .error .wrongForm
  | .f64Word w => if form = .f64 then .ok w else .error .wrongForm

/-- One command with its operand: none for form "none" (OPND = 0), exactly one otherwise (R90). -/
def assembleCommand (c : Config) (m : Mnemonic) : Option Literal → Except AsmError Command
  | none => if (m.instr 0).form = .none then .ok (encode (m.instr 0)) else .error .missingOperand
  | some l =>
    if (m.instr 0).form = .none then .error .extraOperand
    else (l.opnd c (m.instr 0).form).map fun o => encode (m.instr o)

/-- The commands of R92 that have a form `OP.r a, b`. -/
def Mnemonic.hasR : Mnemonic → Bool
  | .add | .sub | .mul | .div | .cmp => true
  | .nop | .ldq | .ldf | .toint | .tof | .pos | .neg | .abs | .inc | .dec | .incp | .decp | .sin | .cos => false

/-- The commands a line assembles to, pseudo-instructions expanded (R92, R93). -/
def Line.assemble (c : Config) : Line → Except AsmError (List Command)
  | .command m l => (assembleCommand c m l).map fun x => [x]
  | .clr => (assembleCommand c .ldq (some (.q 0))).map fun x => [x]
  | .ldone =>
    if c.F > c.W - 2 then .error .oneNotRepresentable
    else (assembleCommand c .ldq (some (.q (2 ^ c.F)))).map fun x => [x]
  | .opR m a b =>
    if m.hasR then
      match assembleCommand c .ldq (some a), assembleCommand c m (some b) with
      | .ok x, .ok y => .ok [x, y]
      | .error e, _ => .error e
      | .ok _, .error e => .error e
    else .error .notAnOpR
  | .set a => (assembleCommand c .ldq (some a)).map fun x => [x]

/-- The value of a decimal digit. -/
def digit? (ch : Char) : Option Nat := if ch.isDigit then some (ch.toNat - 48) else none

/-- The value of a hexadecimal digit. -/
def hexDigit? (ch : Char) : Option Nat :=
  if ch.isDigit then some (ch.toNat - 48)
  else if 'A' ≤ ch.toUpper ∧ ch.toUpper ≤ 'F' then some (ch.toUpper.toNat - 55) else none

/-- A non-empty numeral in `base`, most significant digit first. -/
def numeral? (base : Nat) (val : Char → Option Nat) : List Char → Option Nat
  | [] => none
  | cs => cs.foldl (fun acc ch => acc.bind fun n => (val ch).map fun d => base * n + d) (some 0)

/-- A signed decimal or `0x` hexadecimal integer (R91). -/
def parseInt : List Char → Option Int
  | '0' :: 'x' :: cs => (numeral? 16 hexDigit? cs).map fun n => (n : Int)
  | '-' :: cs => (numeral? 10 digit? cs).map fun n => -(n : Int)
  | cs => (numeral? 10 digit? cs).map fun n => (n : Int)

/-- Digits with at most one point between digits, after an optional minus sign (R91; log 13). -/
def parseDecimal (cs : List Char) : Option Decimal :=
  let neg := cs.head? == some '-'
  let body := if neg then cs.tail else cs
  let whole := body.takeWhile (· != '.')
  match body.dropWhile (· != '.') with
  | [] => (numeral? 10 digit? whole).map fun n => ⟨neg, n, 0⟩
  | _ :: frac =>
    if whole.isEmpty || frac.isEmpty then none
    else (numeral? 10 digit? (whole ++ frac)).map fun n => ⟨neg, n, frac.length⟩

/-- An operand literal (R91). -/
def parseLiteral : List Char → Except AsmError Literal
  | 'q' :: ':' :: cs => ((parseInt cs).map Literal.q).elim (.error .badLiteral) .ok
  | '#' :: cs => ((parseDecimal cs).map Literal.real).elim (.error .badLiteral) .ok
  | 'f' :: ':' :: '0' :: 'x' :: cs =>
    if cs.length = 16 then
      ((numeral? 16 hexDigit? cs).map fun n => Literal.f64Word (BitVec.ofNat 64 n)).elim (.error .badLiteral) .ok
    else .error .badLiteral
  | 'f' :: ':' :: cs =>
    if cs = ['i', 'n', 'f'] then .ok (.f64Inf false)
    else if cs = ['-', 'i', 'n', 'f'] then .ok (.f64Inf true)
    else if cs = ['n', 'a', 'n'] then .ok .f64Nan
    else ((parseDecimal cs).map Literal.f64Real).elim (.error .badLiteral) .ok
  | _ => .error .badLiteral

/-- The spelling of each mnemonic (R82), in capitals. -/
def mnemonicTable : List (List Char × Mnemonic) :=
  [(['N', 'O', 'P'], .nop), (['L', 'D', 'Q'], .ldq), (['L', 'D', 'F'], .ldf), (['T', 'O', 'I', 'N', 'T'], .toint),
   (['T', 'O', 'F'], .tof), (['P', 'O', 'S'], .pos), (['N', 'E', 'G'], .neg), (['A', 'B', 'S'], .abs),
   (['A', 'D', 'D'], .add), (['S', 'U', 'B'], .sub), (['M', 'U', 'L'], .mul), (['D', 'I', 'V'], .div),
   (['I', 'N', 'C'], .inc), (['D', 'E', 'C'], .dec), (['I', 'N', 'C', 'P'], .incp), (['D', 'E', 'C', 'P'], .decp),
   (['C', 'M', 'P'], .cmp), (['S', 'I', 'N'], .sin), (['C', 'O', 'S'], .cos)]

/-- A blank of a line. -/
def isBlank (ch : Char) : Bool := ch == ' ' || ch == '\t'

/-- A text without the blanks at its two ends. -/
def trimBlanks (cs : List Char) : List Char := ((cs.dropWhile isBlank).reverse.dropWhile isBlank).reverse

/-- The operands of a line, split at the commas (R92). -/
def splitOperands (cs : List Char) : List (List Char) :=
  match trimBlanks cs with
  | [] => []
  | cs => (cs.splitOn ',').map trimBlanks

/-- All literals of a line, or the first error. -/
def parseLiterals : List (List Char) → Except AsmError (List Literal)
  | [] => .ok []
  | t :: ts =>
    match parseLiteral t, parseLiterals ts with
    | .ok l, .ok ls => .ok (l :: ls)
    | .error e, _ => .error e
    | .ok _, .error e => .error e

/-- A line from its mnemonic, in capitals, and its literals (R90, R92). -/
def lineOf (name : List Char) (ls : List Literal) : Except AsmError Line :=
  if name = ['C', 'L', 'R'] then
    match ls with
    | [] => .ok .clr
    | _ => .error .extraOperand
  else if name = ['L', 'D', 'O', 'N', 'E'] then
    match ls with
    | [] => .ok .ldone
    | _ => .error .extraOperand
  else if name = ['S', 'E', 'T'] then
    match ls with
    | [a] => .ok (.set a)
    | [] => .error .missingOperand
    | _ => .error .extraOperand
  else
    let isR := name.drop (name.length - 2) == ['.', 'R'] && 2 < name.length
    let base := if isR then name.take (name.length - 2) else name
    match mnemonicTable.lookup base with
    | none => .error .unknownMnemonic
    | some m =>
      if isR then
        match ls with
        | [a, b] => .ok (.opR m a b)
        | [] | [_] => .error .missingOperand
        | _ => .error .extraOperand
      else
        match ls with
        | [] => .ok (.command m none)
        | [a] => .ok (.command m (some a))
        | _ => .error .extraOperand

/-- One line of text (R90): `MNEMONIC [operand] [; comment]`, mnemonics case-insensitive. DESIGN CHOICE (log 13): a line
that is blank or holds only a comment is accepted and gives no command, and the names of R92 and the suffix `.r` are
case-insensitive too; R90 says neither. -/
def parseLine (text : List Char) : Except AsmError (Option Line) :=
  match trimBlanks (text.takeWhile (· != ';')) with
  | [] => .ok none
  | cs =>
    match parseLiterals (splitOperands (cs.dropWhile (!isBlank ·))) with
    | .error e => .error e
    | .ok ls => (lineOf ((cs.takeWhile (!isBlank ·)).map Char.toUpper) ls).map some

/-- A program: its lines' commands in order (R90, R93). -/
def assemble (c : Config) : List (List Char) → Except AsmError (List Command)
  | [] => .ok []
  | t :: ts =>
    match parseLine t with
    | .error e => .error e
    | .ok none => assemble c ts
    | .ok (some l) =>
      match l.assemble c, assemble c ts with
      | .ok cs, .ok rest => .ok (cs ++ rest)
      | .error e, _ => .error e
      | .ok _, .error e => .error e

/-- The hexadecimal numeral of the low `4 * n` bits of `v`, in capitals. -/
def hexDigits : Nat → Nat → List Char
  | 0, _ => []
  | n + 1, v => hexDigits n (v / 16) ++ [['0', '1', '2', '3', '4', '5', '6', '7', '8', '9', 'A', 'B', 'C', 'D', 'E', 'F'].getD (v % 16) '0']

/-- The written form of a command pair, `CMD=0x........ OPND=0x................` (R93). -/
def writtenForm (c : Command) : List Char :=
  ['C', 'M', 'D', '=', '0', 'x'] ++ hexDigits 8 c.cmd.toNat ++ [' ', 'O', 'P', 'N', 'D', '=', '0', 'x']
    ++ hexDigits 16 c.opnd.toNat

end Sys2Proof.Machine
end

