-- ==== Sys2Proof/Machine/HostBus.lean ====
section
/-! DEFINITION. A host that reaches the ports through a byte-addressed bus (spec/20_memory.md R61, R64): the open
parameters HOST_BYTE_ORDER and HOST_PORT_MAP (spec/00_scope.md R10) as arguments, and the bytes such a host sees and
sends. No rule of the unit depends on them, and no step reads them (log 11). -/

namespace Sys2Proof.Machine

/-- HOST_BYTE_ORDER: which byte of a word, counted from the least significant, stands at each offset from its lowest
address, for the 32-bit and for the 64-bit words. -/
structure HostByteOrder where
  word32 : List Nat
  word64 : List Nat
deriving DecidableEq, Repr

/-- An order places every byte of a word once. -/
def HostByteOrder.ok (o : HostByteOrder) : Bool :=
  decide (o.word32.Perm (List.range 4)) && decide (o.word64.Perm (List.range 8))

/-- Least significant byte at the lowest address. -/
def HostByteOrder.little : HostByteOrder := { word32 := [0, 1, 2, 3], word64 := [0, 1, 2, 3, 4, 5, 6, 7] }

/-- Most significant byte at the lowest address. -/
def HostByteOrder.big : HostByteOrder := { word32 := [3, 2, 1, 0], word64 := [7, 6, 5, 4, 3, 2, 1, 0] }

/-- The ports of the unit (R30). -/
inductive Port where
  | clk | rst | cmdValid | cmdReady | cmd | opnd | res | status | config | fcmd | fopnd | fault
deriving DecidableEq, Repr

/-- The width of a port in bits (R30). -/
def Port.width : Port → Nat
  | .clk | .rst | .cmdValid | .cmdReady | .fault => 1
  | .cmd | .status | .config | .fcmd => 32
  | .opnd | .res | .fopnd => 64

/-- The places of the bytes of a port, lowest address first. DESIGN CHOICE (log 11): HOST_BYTE_ORDER speaks of 32-bit
and 64-bit words only, and a port of one bit takes one byte, whose bit 0 it is. -/
def Port.bytes (o : HostByteOrder) : Port → List Nat
  | .clk | .rst | .cmdValid | .cmdReady | .fault => [0]
  | .cmd | .status | .config | .fcmd => o.word32
  | .opnd | .res | .fopnd => o.word64

/-- The number of bytes of a port. -/
def Port.size (p : Port) : Nat := (p.width + 7) / 8

/-- What a read of a port returns; the state stays as it is (R62). Nothing leaves the unit at an input port (R60).
DESIGN CHOICE (log 11): the spec is silent on the other bits of the byte of a one-bit port; bits 7:1 read as 0. -/
def State.readPort (s : State) : Port → Option DataWord
  | .clk | .rst | .cmdValid | .cmd | .opnd => none
  | .cmdReady => some ((BitVec.ofBool s.cmdReady).setWidth 64)
  | .fault => some ((BitVec.ofBool s.faultPort).setWidth 64)
  | .res => some s.resPort
  | .status => some (s.statusPort.setWidth 64)
  | .config => some (s.configPort.setWidth 64)
  | .fcmd => some (s.fcmdPort.setWidth 64)
  | .fopnd => some s.fopndPort

/-- The bytes of a port that holds the word `w`, lowest address first. -/
def hostBytes (o : HostByteOrder) (p : Port) (w : DataWord) : List (BitVec 8) :=
  (p.bytes o).map fun k => w.extractLsb' (8 * k) 8

/-- The word of a port whose bytes, lowest address first, are `bs`. The unit has no mixed-width access (R61).
DESIGN CHOICE (log 11): a list of another length than the port's is no word of it. -/
def hostWord (o : HostByteOrder) (p : Port) (bs : List (BitVec 8)) : Option DataWord :=
  if bs.length = p.size then
    some (((p.bytes o).zip bs).foldl (fun w kb => w ||| ((kb.2.setWidth 64 : DataWord) <<< (8 * kb.1 : Nat))) 0)
  else none

/-- HOST_PORT_MAP: the lowest address of each port the host maps (R64). DESIGN CHOICE (log 11): the spec leaves the
placement wholly open; here the bytes of a mapped port stand at consecutive byte addresses from one lowest address. -/
abbrev HostPortMap := List (Port × Nat)

/-- The address `a` is one of the bytes of a mapped port. -/
def covers (a : Nat) (e : Port × Nat) : Bool := decide (e.2 ≤ a) && decide (a < e.2 + e.1.size)

/-- The mapped port an address belongs to. DESIGN CHOICE (log 11): the spec leaves the map open; where two mapped
ports overlap, neither answers. -/
def HostPortMap.portAt (m : HostPortMap) (a : Nat) : Option (Port × Nat) :=
  match m.filter (covers a) with
  | [e] => some e
  | [] | _ :: _ :: _ => none

/-- The byte a host reads at address `a`, none where no output port answers. -/
def State.hostReadByte (s : State) (o : HostByteOrder) (m : HostPortMap) (a : Nat) : Option (BitVec 8) :=
  match HostPortMap.portAt m a with
  | none => none
  | some (p, base) =>
    match s.readPort p with
    | none => none
    | some w => (hostBytes o p w)[a - base]?

/-- The word a host sends to the port `p`, `sent` giving the byte it has sent to each address: none unless every byte
of the port has been sent to an address at which the port answers. A port listed twice is sent to at its first place
(log 11). -/
def HostPortMap.sentWord (o : HostByteOrder) (m : HostPortMap) (sent : Nat → Option (BitVec 8)) (p : Port) :
    Option DataWord :=
  match m.lookup p with
  | none => none
  | some base =>
    let at? := fun k => if HostPortMap.portAt m (base + k) = some (p, base) then sent (base + k) else none
    match (List.range p.size).mapM at? with
    | none => none
    | some bs => hostWord o p bs

/-- The command pair a host sends through its map, both words whole; the unit takes them at one edge (R62). -/
def hostCommand (o : HostByteOrder) (m : HostPortMap) (sent : Nat → Option (BitVec 8)) : Option Command :=
  match HostPortMap.sentWord o m sent .cmd, HostPortMap.sentWord o m sent .opnd with
  | some c, some x => some { cmd := c.setWidth 32, opnd := x }
  | _, _ => none

end Sys2Proof.Machine
end

