-- ==== Sys2Proof/Tests/Slice0.lean ====
section
/-! SUPPORT. The author's tests: the smoke test of WellFormed, decoding of words written out from
spec/30_encoding.md R82, single commands and single edges with the values of spec/95_test_vectors.md, the assembler,
and a witness for the hypotheses of each statement that has some. -/

namespace Sys2Proof.Tests

open Sys2Proof.Machine

/-! ## Well-formedness: an ill-formed term for each check, which the check refuses -/

/-- R5: `D >= 1`, `F >= 1`, `D + F <= 32`. -/
theorem test_paramsOk_refuses :
    paramsOk 0 16 = false ∧ paramsOk 16 0 = false ∧ paramsOk 17 16 = false := by decide

theorem test_paramsOk_accepts : paramsOk 1 1 = true ∧ paramsOk 31 1 = true ∧ paramsOk 1 31 = true := by decide

/-- R91: a Q literal lies in the W-bit signed range. -/
theorem test_qLiteralOk_refuses :
    qLiteralOk 32 2147483648 = false ∧ qLiteralOk 32 (-2147483649) = false ∧ qLiteralOk 8 128 = false := by decide

theorem test_qLiteralOk_accepts :
    qLiteralOk 32 2147483647 = true ∧ qLiteralOk 32 (-2147483648) = true ∧ qLiteralOk 8 (-128) = true := by decide

/-! ## Configurations -/

abbrev d2f2 : Config := { D := 2, F := 2 }
abbrev d4f4 : Config := { D := 4, F := 4 }
abbrev d1f7 : Config := { D := 1, F := 7 }
abbrev d7f2 : Config := { D := 7, F := 2 }
abbrev d14f18 : Config := { D := 14, F := 18 }
abbrev d13f19 : Config := { D := 13, F := 19 }
abbrev d11f21 : Config := { D := 11, F := 21 }
abbrev d10f22 : Config := { D := 10, F := 22 }
abbrev d16 : Config := Config.d16f16

/-- R37: CONFIG of FXU-D16F16; W of the other configurations (R6). -/
theorem test_config : configWord d16 = 0x40201010 ∧ isaString d16 = "FXU-D16F16" ∧
    [d2f2.W, d4f4.W, d1f7.W, d7f2.W, d14f18.W] = [8, 8, 8, 16, 32] := by decide

/-! ## Decoding: the word of each command, bit by bit (R82), and the illegal words of 95 section 2.5 -/

theorem test_decode_nop : decode ⟨0b00000000000000000000000000000000, 0x8000000000000005⟩ = .ok (.nop 0x8000000000000005) := by decide
theorem test_decode_ldq : decode ⟨0b00000000000000000000000000010000, 0x8000000000000005⟩ = .ok (.ldq 0x8000000000000005) := by decide
theorem test_decode_ldf : decode ⟨0b00000000000000000000000000010001, 0x8000000000000005⟩ = .ok (.ldf 0x8000000000000005) := by decide
theorem test_decode_toint : decode ⟨0b00000000000000000000000000010010, 0x8000000000000005⟩ = .ok (.toint 0x8000000000000005) := by decide
theorem test_decode_tof : decode ⟨0b00000000000000000000000000010011, 0x8000000000000005⟩ = .ok (.tof 0x8000000000000005) := by decide
theorem test_decode_pos : decode ⟨0b00000000000000000000000000100000, 0x8000000000000005⟩ = .ok (.pos 0x8000000000000005) := by decide
theorem test_decode_neg : decode ⟨0b00000000000000000000000000100001, 0x8000000000000005⟩ = .ok (.neg 0x8000000000000005) := by decide
theorem test_decode_abs : decode ⟨0b00000000000000000000000000100010, 0x8000000000000005⟩ = .ok (.abs 0x8000000000000005) := by decide
theorem test_decode_add : decode ⟨0b00000000000000000000000000101000, 0x8000000000000005⟩ = .ok (.add 0x8000000000000005) := by decide
theorem test_decode_sub : decode ⟨0b00000000000000000000000000101001, 0x8000000000000005⟩ = .ok (.sub 0x8000000000000005) := by decide
theorem test_decode_mul : decode ⟨0b00000000000000000000000000101010, 0x8000000000000005⟩ = .ok (.mul 0x8000000000000005) := by decide
theorem test_decode_div : decode ⟨0b00000000000000000000000000101011, 0x8000000000000005⟩ = .ok (.div 0x8000000000000005) := by decide
theorem test_decode_inc : decode ⟨0b00000000000000000000000000110000, 0x8000000000000005⟩ = .ok (.inc 0x8000000000000005) := by decide
theorem test_decode_dec : decode ⟨0b00000000000000000000000000110001, 0x8000000000000005⟩ = .ok (.dec 0x8000000000000005) := by decide
theorem test_decode_incp : decode ⟨0b00000000000000000000000000110010, 0x8000000000000005⟩ = .ok (.incp 0x8000000000000005) := by decide
theorem test_decode_decp : decode ⟨0b00000000000000000000000000110011, 0x8000000000000005⟩ = .ok (.decp 0x8000000000000005) := by decide
theorem test_decode_cmp : decode ⟨0b00000000000000000000000000111000, 0x8000000000000005⟩ = .ok (.cmp 0x8000000000000005) := by decide
theorem test_decode_sin : decode ⟨0b00000000000000000000000001000000, 0x8000000000000005⟩ = .ok (.sin 0x8000000000000005) := by decide
theorem test_decode_cos : decode ⟨0b00000000000000000000000001000001, 0x8000000000000005⟩ = .ok (.cos 0x8000000000000005) := by decide

theorem test_decode_illegal :
    decode ⟨0x00000100, 0⟩ = .error .reservedBits ∧ decode ⟨0x80000028, 0⟩ = .error .reservedBits ∧
    decode ⟨0x00000001, 0⟩ = .error .unassignedOpcode ∧ decode ⟨0x000000FF, 0⟩ = .error .unassignedOpcode ∧
    decode ⟨0x00000014, 0⟩ = .error .unassignedOpcode ∧ decode ⟨0x00000042, 0⟩ = .error .unassignedOpcode :=
  by decide

/-- R93 and program P1 step 2: `SUB q:-262144` is `CMD=0x00000029 OPND=0xFFFFFFFFFFFC0000`. -/
theorem test_encode_sub : encode (.sub 0xFFFFFFFFFFFC0000) = ⟨0x00000029, 0xFFFFFFFFFFFC0000⟩ := rfl

/-- The opcode table's 32-bit row of ADD, and the same with an operand word above it (log 10). -/
theorem test_decodeTableWord :
    decodeTableWord 32 0x28 = some (.add 0) ∧ decodeTableWord 96 0x500000028 = some (.add 5) ∧
    decodeTableWord 32 0x14 = none := by decide

/-! ## One command: the vectors of spec/95_test_vectors.md section 2 -/

/-- A unit in the start state of 95 section 2, ACC holding `a`. -/
def unit (c : Config) (a : Int) : State := { State.resetOf c with acc := word c.W a }

/-- The outcome is a next state with these ACC, RES and STATUS. -/
def shows (o : Host.Outcome State Fault Refusal) (a : Int) (r : DataWord) (st : BitVec 32) : Bool :=
  match o with
  | .next t => decide (sint t.acc = a) && decide (t.res = r) && decide (t.statusPort = st)
  | .fault _ => false
  | .refused _ => false

/-- The outcome is a next state in FAULTED that records the command pair `c` (R206). -/
def records (o : Host.Outcome State Fault Refusal) (c : Command) : Bool :=
  match o with
  | .next t => decide (t.seq = .faulted) && decide (t.fcmd = c.cmd) && decide (t.fopnd = c.opnd)
  | .fault _ => false
  | .refused _ => false

theorem test_nop : shows (exec (.nop 0) (unit d16 417792)) 417792 0 0 = true := by decide

theorem test_ldq_garbage_above_w :
    shows (exec (.ldq 0x1234567880000000) (unit d16 0)) (-2147483648) 0xFFFFFFFF80000000 0 = true := by decide

theorem test_ldf_truncates_toward_zero :
    shows (exec (.ldf 0xBFB999999999999A) (unit d16 0)) (-6553) 0xFFFFFFFFFFFFE667 0 = true := by decide

theorem test_ldf_out_of_range :
    shows (exec (.ldf 0x40E0000000000000) (unit d16 5)) 5 0 0x00003100 = true ∧
    records (exec (.ldf 0x40E0000000000000) (unit d16 5)) ⟨0x11, 0x40E0000000000000⟩ = true := by decide

theorem test_toint_not_floor :
    shows (exec (.toint 0) (unit d16 (-104448))) (-104448) 0xFFFFFFFFFFFFFFFF 0 = true := by decide

theorem test_tof_max :
    shows (exec (.tof 0) (unit d16 2147483647)) 2147483647 0x40DFFFFFFFC00000 0 = true := by decide

theorem test_pos_min :
    shows (exec (.pos 0) (unit d16 (-2147483648))) (-2147483648) 0xFFFFFFFF80000000 0 = true := by decide

theorem test_neg : shows (exec (.neg 0) (unit d16 417792)) (-417792) 0xFFFFFFFFFFF9A000 0 = true := by decide

theorem test_abs_min :
    shows (exec (.abs 0) (unit d16 (-2147483648))) (-2147483648) 0xFFFFFFFF80000000 0 = true := by decide

theorem test_add_wraps :
    shows (exec (.add 1) (unit d16 2147483647)) (-2147483648) 0xFFFFFFFF80000000 0 = true := by decide

theorem test_sub_example :
    shows (exec (.sub 0xFFFFFFFFFFFC0000) (unit d16 417792)) 679936 0xA6000 0 = true := by decide

theorem test_mul_floors : shows (exec (.mul 0x8000) (unit d16 (-1))) (-1) 0xFFFFFFFFFFFFFFFF 0 = true := by decide

/-- The product is not cut to W bits before the shift (C5). -/
theorem test_mul_full_product : shows (exec (.mul 0x30) (unit d2f2 48)) 64 0x40 0 = true := by decide

theorem test_div_example :
    shows (exec (.div 0xFFFFFFFFFFFC0000) (unit d16 417792)) (-104448) 0xFFFFFFFFFFFE6800 0 = true := by decide

theorem test_div_zero_low_bits :
    shows (exec (.div 0xFFFFFFFF00000000) (unit d16 417792)) 417792 0 0x00002100 = true ∧
    records (exec (.div 0xFFFFFFFF00000000) (unit d16 417792)) ⟨0x2B, 0xFFFFFFFF00000000⟩ = true := by decide

theorem test_inc_wraps : shows (exec (.inc 0) (unit d1f7 0)) (-128) 0xFFFFFFFFFFFFFF80 0 = true := by decide

theorem test_dec_wraps :
    shows (exec (.dec 0) (unit d16 (-2147483648))) 2147418112 0x7FFF0000 0 = true := by decide

theorem test_incp_old_value : shows (exec (.incp 0) (unit d16 417792)) 483328 0x66000 0 = true := by decide

theorem test_decp_old_value : shows (exec (.decp 0) (unit d16 417792)) 352256 0x66000 0 = true := by decide

theorem test_cmp_min_max :
    shows (exec (.cmp 0x7FFFFFFF) (unit d16 (-2147483648))) (-2147483648) 0 0x00000002 = true := by decide

theorem test_cmp_ignores_upper_bits :
    shows (exec (.cmp 0xFFFFFFFF00000005) (unit d16 5)) 5 0 0x00000001 = true := by decide

theorem test_sin_half : shows (exec (.sin 0) (unit d16 32768)) 31420 0x7ABC 0 = true := by decide

theorem test_sin_unsupported :
    shows (exec (.sin 0) (unit d13f19 262144)) 262144 0 0x00004100 = true ∧
    records (exec (.sin 7) (unit d13f19 262144)) ⟨0x40, 7⟩ = true := by decide

theorem test_cos_four : shows (exec (.cos 0) (unit d16 262144)) (-132528) 0xFFFFFFFFFFFDFA50 0 = true := by decide

theorem test_cos_unsupported : shows (exec (.cos 0) (unit d4f4 8)) 8 0 0x00004100 = true := by decide

/-- 95 section 2.5: an illegal word faults, ACC kept. -/
theorem test_illegal :
    shows (execute ⟨0x80000028, 3⟩ (unit d16 417792)) 417792 0 0x00001100 = true ∧
    records (execute ⟨0x80000028, 3⟩ (unit d16 417792)) ⟨0x80000028, 3⟩ = true := by decide

/-- 95 section 2.3, last row: GT from an earlier CMP stays through an ADD. -/
theorem test_add_keeps_flags :
    shows (exec (.add 1) ((unit d16 5).setFlags false false true)) 6 6 0x00000004 = true := by decide

/-! ## One edge -/

/-- The state a step answers is as `p` says. -/
def stepGives (s : State) (p : State → Bool) : Bool :=
  match step s with
  | .next t => p t
  | .fault _ => false
  | .refused _ => false

/-- R42: the accepting edge of an ADD, with LAT = 1: BUSY, and STATUS shows bit 9 only. -/
theorem test_accept :
    stepGives { unit d16 5 with offers := [some ⟨0x28, 1⟩] }
      (fun t => decide (t.seq = .busy ⟨0x28, 1⟩ 0) && decide (t.statusPort = 0x200) && decide (t.offers = []) &&
        !t.cmdReady) = true := by decide

/-- R236: a configuration in which ADD takes three edges (`LAT = 3`). -/
theorem test_accept_slow :
    stepGives { State.resetOf { D := 16, F := 16, lat := List.replicate 40 0 ++ [2] } with offers := [some ⟨0x28, 1⟩] }
      (fun t => decide (t.seq = .busy ⟨0x28, 1⟩ 2)) = true := by decide

theorem test_count : stepGives { unit d16 5 with seq := .busy ⟨0x28, 1⟩ 2 }
    (fun t => decide (t.seq = .busy ⟨0x28, 1⟩ 1) && decide (sint t.acc = 5)) = true := by decide

theorem test_complete : stepGives { unit d16 5 with seq := .busy ⟨0x28, 1⟩ 0 }
    (fun t => decide (t.seq = .idle) && decide (sint t.acc = 6) && t.cmdReady) = true := by decide

/-- The state of FAULTED after the DIV_ZERO row of 95 section 2.2. -/
def faultedUnit : State := (unit d16 417792).raiseFault .divZero ⟨0x2B, 0⟩

/-- 95 section 2.6: an offer to a faulted unit is not accepted and no register changes. -/
theorem test_faulted_accepts_nothing :
    step { faultedUnit with offers := [some ⟨0x28, 1⟩] } = .next { faultedUnit with offers := [some ⟨0x28, 1⟩] } := rfl

/-- 95 section 2.6: reset from FAULTED, and from BUSY with a SIN in flight that is abandoned. -/
theorem test_reset_edge :
    stepGives { faultedUnit with rst := [true] }
      (fun t => decide (sint t.acc = 0) && decide (t.statusPort = 0) && decide (t.fcmd = 0) && t.cmdReady) = true ∧
    stepGives { unit d16 32768 with seq := .busy ⟨0x40, 0⟩ 0, rst := [true] }
      (fun t => decide (sint t.acc = 0) && decide (t.res = 0) && decide (t.seq = .idle)) = true := by decide

/-- 95 section 2.4 and P4: with LAT = 1 the engine holds p3 = 8192, p7 = 512 and the sum 31420 in the one cycle of a SIN
of 0.5, and shows none of it. -/
theorem test_sin_busy :
    stepGives { unit d16 32768 with offers := [some ⟨0x40, 0⟩] }
      (fun t => decide (sint t.temps.p3 = 8192) && decide (sint t.temps.p7 = 512) && decide (sint t.temps.s = 31420) &&
        decide (sint t.acc = 32768) && decide (t.res = 0) && decide (t.statusPort = 0x200)) = true := by decide

/-- R217: a run ends where the unit has completed the last command of the run, not where one is still offered. -/
theorem test_isEnd :
    (unit d16 5).endedCleanly = true ∧ State.isEnd { unit d16 5 with offers := [some ⟨0x2B, 0⟩] } = false ∧
    State.isEnd { unit d16 5 with offers := [none, some ⟨0x2B, 0⟩], rst := [false, true] } = true ∧
    faultedUnit.endedInFault = true := by decide

/-- R217, R230: a command the next reset abandons has no completion edge, so the run's last completion is past. -/
theorem test_isEnd_abandoned :
    State.isEnd { unit d16 5 with offers := [some ⟨0x28, 1⟩], rst := [false, true] } = true ∧
    State.isEnd { unit d16 5 with offers := [some ⟨0x28, 1⟩], rst := [false, false, true] } = false := by decide

/-- The machine's own reset state waits for a command. -/
theorem test_reset : State.reset.cmdReady = true ∧ State.reset.statusPort = 0 ∧ step State.reset = .next State.reset :=
  ⟨rfl, rfl, rfl⟩

/-- A row of the opcode table runs as the first instruction after reset. -/
theorem test_withFetchWord :
    stepGives (State.reset.withFetchWord 32 0x30) (fun t => decide (sint t.acc = 65536) && decide (t.seq = .idle)) =
      true := by decide

/-! ## The assembler (R90 to R93) -/

/-- Lines of text as lists of characters. -/
def text (ls : List String) : List (List Char) := ls.map String.toList

/-- E1 and P1: binary64 literals, a comment, and a Q literal. -/
theorem test_asm_literals :
    assemble d16 (text ["LDF f:0.1 ; 0.1", "ldf f:-2.7", "SUB q:-262144", "CMP #1.0", "LDF f:nan"]) =
      .ok [⟨0x11, 0x3FB999999999999A⟩, ⟨0x11, 0xC00599999999999A⟩, ⟨0x29, 0xFFFFFFFFFFFC0000⟩, ⟨0x38, 0x10000⟩,
        ⟨0x11, 0x7FF8000000000000⟩] := by decide +kernel

/-- R92: pseudo-instructions. -/
theorem test_asm_pseudo :
    assemble d16 (text ["CLR", "LDONE", "DIV.r q:417792, #-4.0", "SET q:0x10"]) =
      .ok [⟨0x10, 0⟩, ⟨0x10, 0x10000⟩, ⟨0x10, 0x66000⟩, ⟨0x2B, 0xFFFFFFFFFFFC0000⟩, ⟨0x10, 0x10⟩] := by decide +kernel

/-- R91, R92: assembly errors. -/
theorem test_asm_errors :
    assemble d16 (text ["LDQ q:2147483648"]) = .error .qOutOfRange ∧
    assemble d16 (text ["LDQ #32768"]) = .error .realOutOfRange ∧
    assemble d1f7 (text ["LDONE"]) = .error .oneNotRepresentable ∧
    assemble d16 (text ["NEG q:1"]) = .error .extraOperand ∧
    assemble d16 (text ["ADD"]) = .error .missingOperand ∧
    assemble d16 (text ["LDF q:1"]) = .error .wrongForm := by decide +kernel

/-- R93: the written form of a command pair. -/
theorem test_asm_written :
    String.ofList (writtenForm ⟨0x29, 0xFFFFFFFFFFFC0000⟩) = "CMD=0x00000029 OPND=0xFFFFFFFFFFFC0000" := by decide +kernel

/-! ## A host on a byte-addressed bus (R61, R64) -/

/-- CONFIG of FXU-D16F16, 0x40201010, at address 0x100 of a big-endian and of a little-endian host; `cmd_ready` is 1;
an input port gives nothing, and neither of two ports that overlap. -/
theorem test_hostReadByte :
    HostByteOrder.big.ok = true ∧ HostByteOrder.little.ok = true ∧
    State.reset.hostReadByte .big [(.config, 0x100), (.cmdReady, 0x104)] 0x100 = some 0x40 ∧
    State.reset.hostReadByte .little [(.config, 0x100)] 0x103 = some 0x40 ∧
    State.reset.hostReadByte .big [(.config, 0x100), (.cmdReady, 0x104)] 0x104 = some 1 ∧
    State.reset.hostReadByte .big [(.cmd, 0x100)] 0x100 = none ∧
    State.reset.hostReadByte .big [(.config, 0x100), (.status, 0x102)] 0x102 = none := by decide

/-- SUB of -4.0 (P1 step 2) sent by a big-endian host through its map; with a byte missing nothing is sent. -/
theorem test_hostCommand :
    let m : HostPortMap := [(.cmd, 0x10), (.opnd, 0x18)]
    let bytes : List (BitVec 8) := [0, 0, 0, 0x29, 0, 0, 0, 0, 0xFF, 0xFF, 0xFF, 0xFF, 0xFF, 0xFC, 0, 0]
    hostCommand .big m (fun a => if a < 0x10 then none else bytes[a - 0x10]?) =
      some ⟨0x00000029, 0xFFFFFFFFFFFC0000⟩ ∧
    hostCommand .big m (fun a => if a < 0x11 then none else bytes[a - 0x10]?) = none := by decide

/-! ## Witnesses: the hypotheses of each statement are met, at the boundary values of its clauses -/

theorem witness_IllegalWordsFault : ∃ e e', decode ⟨0x00000042, 0⟩ = .error e ∧ decode ⟨0x00000100, 0⟩ = .error e' :=
  ⟨.unassignedOpcode, .reservedBits, by decide, by decide⟩

theorem witness_UpperOperandBitsIgnored :
    (0x00000000FFFC0000 : DataWord).setWidth (unit d16 0).config.W =
      (0xFFFFFFFFFFFC0000 : DataWord).setWidth (unit d16 0).config.W ∧
    (0 : DataWord).setWidth (unit d16 0).config.W =
      (0xFFFFFFFF00000000 : DataWord).setWidth (unit d16 0).config.W := by
  constructor <;> decide

theorem witness_UnusedOperandOnlyRecorded :
    (Instr.sin 0).form = .none ∧ (Instr.sin 0).opcode = (Instr.sin 7).opcode := by decide

/-- The sums 5 and 4, where the second and the third clause begin. -/
theorem witness_DatapathWidthIsScratchWidth :
    5 ≤ ({ D := 4, F := 1 } : Config).D + ({ D := 4, F := 1 } : Config).F ∧ ({ D := 4, F := 1 } : Config).W2 = 16 ∧
    d2f2.D + d2f2.F ≤ 4 ∧ d2f2.W2 = 8 := by decide

/-- The largest and the least value LDF takes in FXU-D16F16 (95 section 2.1). -/
theorem witness_LdfTruncatesOrFaults_loads :
    (f64Value 0x40DFFFFFFFC00000).real = some (2147483647 / 65536) ∧
    inRange (unit d16 0).config (truncRat ((2147483647 / 65536 : ℚ) * 2 ^ (unit d16 0).config.F)) ∧
    (f64Value 0xC0E0000000000000).real = some (-32768) ∧
    inRange (unit d16 0).config (truncRat ((-32768 : ℚ) * 2 ^ (unit d16 0).config.F)) := by
  refine ⟨by decide +kernel, ?_, by decide +kernel, ?_⟩ <;>
    · simp only [unit, State.resetOf, d16, inRange, truncRat]
      decide +kernel

/-- NaN, and 32768.0, the least positive value out of range. -/
theorem witness_LdfTruncatesOrFaults_faults :
    (∀ x, (f64Value 0x7FF8000000000000).real = some x →
      ¬inRange (unit d16 0).config (truncRat (x * 2 ^ (unit d16 0).config.F))) ∧
    (∀ x, (f64Value 0x40E0000000000000).real = some x →
      ¬inRange (unit d16 0).config (truncRat (x * 2 ^ (unit d16 0).config.F))) := by
  constructor
  · intro x h
    have h' : (f64Value 0x7FF8000000000000).real = none := by decide
    rw [h'] at h
    cases h
  · intro x h
    have h' : (f64Value 0x40E0000000000000).real = some 32768 := by decide +kernel
    rw [h'] at h
    obtain rfl := Option.some.inj h
    decide +kernel

/-- ACC = 0, for the last clause. -/
theorem witness_TofIsExact : sint (unit d16 0).acc = 0 := by decide

/-- -0.1 (E1). -/
theorem witness_LdfTofRoundTrip :
    ∃ (t u : State) (x : ℚ), (f64Value 0xBFB999999999999A).real = some x ∧
      exec (.ldf 0xBFB999999999999A) (unit d16 0) = .next t ∧ t.seq = .idle ∧ exec (.tof 0) t = .next u :=
  ⟨_, _, _, rfl, rfl, rfl, rfl⟩

theorem witness_TofThenLdfRestores : ∃ t, exec (.tof 0) (unit d16 (-104448)) = .next t := ⟨_, rfl⟩

/-- The minimum, for the last clause of NEG and of ABS. -/
theorem witness_NegWraps : sint (unit d16 (-2147483648)).acc = -2 ^ ((unit d16 (-2147483648)).config.W - 1) := by decide

/-- 1 and -1, the divisors next to zero. -/
theorem witness_DivRoundsOrFaults_rounds :
    (1 : DataWord).setWidth (unit d16 5).config.W ≠ 0 ∧
    (0xFFFFFFFFFFFFFFFF : DataWord).setWidth (unit d16 5).config.W ≠ 0 := by decide

theorem witness_DivRoundsOrFaults_faults :
    (0 : DataWord).setWidth (unit d16 5).config.W = 0 ∧
    (0xFFFFFFFF00000000 : DataWord).setWidth (unit d16 5).config.W = 0 := by decide

/-- E4, and the least divisor the law admits. -/
theorem witness_DivNearlyInvertsMul :
    (2 ^ d16.F ≤ |sint (word d16.W (-262144))| ∧
      inRange d16 ⌊(sint (word d16.W 417792) * sint (word d16.W (-262144)) : ℚ) / 2 ^ d16.F⌋) ∧
    (2 ^ d16.F ≤ |sint (word d16.W 65536)| ∧
      inRange d16 ⌊(sint (word d16.W 417792) * sint (word d16.W 65536) : ℚ) / 2 ^ d16.F⌋) := by
  decide +kernel

theorem witness_SixRelationsFromFlags : ∃ t, exec (.cmp 0x66000) (unit d16 417792) = .next t := ⟨_, rfl⟩

theorem witness_OnlyCmpWritesFlags :
    (∃ t, exec (.add 1) (unit d16 5) = .next t) ∧ (∃ t, exec (.div 0) (unit d16 5) = .next t) ∧
    (∀ o, Instr.add 1 ≠ .cmp o) ∧ (∀ o, Instr.div 0 ≠ .cmp o) :=
  ⟨⟨_, rfl⟩, ⟨_, rfl⟩, fun _ => nofun, fun _ => nofun⟩

/-- One configuration on each side of each bound, for each width. -/
theorem witness_TrigAvailability :
    d4f4.W = 8 ∧ d7f2.W = 16 ∧ sinAvailable d7f2 = true ∧ sinAvailable { D := 7, F := 3 } = false ∧
    cosAvailable { D := 7, F := 5 } = true ∧ cosAvailable { D := 7, F := 6 } = false ∧ d14f18.W = 32 := by decide

/-- The two configurations that meet at the bound of SIN. -/
theorem witness_SinWritesSeriesOrFaults :
    13 ≤ (unit d14f18 0).config.W - 1 - (unit d14f18 0).config.F ∧
    (unit d13f19 0).config.W - 1 - (unit d13f19 0).config.F < 13 := by decide

/-- The two configurations that meet at the bound of COS. -/
theorem witness_CosWritesSeriesOrFaults :
    10 ≤ (unit d11f21 0).config.W - 1 - (unit d11f21 0).config.F ∧
    (unit d10f22 0).config.W - 1 - (unit d10f22 0).config.F < 10 := by decide

theorem witness_SinIsItsPrimitiveCommands : sinAvailable (unit d14f18 131072).config = true := by decide

theorem witness_CosIsItsPrimitiveCommands : cosAvailable (unit d11f21 0).config = true := by decide

theorem witness_CauseFixedByOpcode :
    (∃ t, exec (.div 0) (unit d16 5) = .next t ∧ t.seq = .faulted) ∧
    (∃ t, exec (.ldf 0x7FF8000000000000) (unit d16 5) = .next t ∧ t.seq = .faulted) ∧
    (∃ t, exec (.sin 0) (unit d13f19 5) = .next t ∧ t.seq = .faulted) ∧
    (∃ t, exec (.cos 0) (unit d10f22 5) = .next t ∧ t.seq = .faulted) :=
  ⟨⟨_, rfl, rfl⟩, ⟨_, rfl, rfl⟩, ⟨_, rfl, rfl⟩, ⟨_, rfl, rfl⟩⟩

theorem witness_FaultedUntilReset :
    faultedUnit.seq = .faulted ∧ ∀ j < 3, faultedUnit.rst.getD j false = false := ⟨rfl, fun _ _ => rfl⟩

theorem witness_ConfigNeverChanges :
    ∃ t, step { unit d4f4 5 with seq := .busy ⟨0x20, 0⟩ 0, rst := [true] } = .next t := ⟨_, rfl⟩

/-- A legal word and an illegal one. -/
theorem witness_StepRunsDecodedCommand :
    (unit d16 5).rst.headD false = false ∧ decode ⟨0x28, 1⟩ = .ok (.add 1) ∧
    decode ⟨0x29000000, 1⟩ = .error .reservedBits ∧
    ({ unit d16 5 with seq := .busy ⟨0x28, 1⟩ 0 } : State).seq = .busy ⟨0x28, 1⟩ 0 ∧
    ({ unit d16 5 with seq := .busy ⟨0x29000000, 1⟩ 0 } : State).seq = .busy ⟨0x29000000, 1⟩ 0 := by decide

/-- A unit that is ready, and one that `rst` or FAULTED keeps from being so. -/
theorem witness_AcceptsOfferWhenReady :
    ({ unit d16 5 with offers := [some ⟨0x28, 1⟩] } : State).cmdReady = true ∧
    ({ unit d16 5 with offers := [some ⟨0x28, 1⟩], rst := [true] } : State).cmdReady = false ∧
    ({ faultedUnit with offers := [some ⟨0x28, 1⟩] } : State).cmdReady = false ∧
    (∃ t, step { faultedUnit with offers := [some ⟨0x28, 1⟩] } = .next t) :=
  ⟨rfl, rfl, rfl, ⟨_, rfl⟩⟩

theorem witness_BusyShowsPreviousCompletion :
    ({ unit d16 5 with seq := .busy ⟨0x40, 0⟩ 1 } : State).rst.headD false = false ∧
    ({ unit d16 5 with seq := .busy ⟨0x40, 0⟩ 1 } : State).seq = .busy ⟨0x40, 0⟩ (0 + 1) := ⟨rfl, rfl⟩

theorem witness_AcceptedCommandCompletes :
    ({ unit d16 5 with seq := .busy ⟨0x40, 0⟩ 2, rst := [false, false, false, true] } : State).seq = .busy ⟨0x40, 0⟩ 2 ∧
    ∀ j ≤ 2, ({ unit d16 5 with seq := .busy ⟨0x40, 0⟩ 2, rst := [false, false, false, true] } : State).rst.getD j false
      = false := ⟨rfl, by decide⟩

theorem witness_ResetEdgeGivesResetValues :
    ({ faultedUnit with rst := [true] } : State).rst.headD false = true ∧
    ({ unit d16 5 with seq := .busy ⟨0x40, 0⟩ 0, rst := [true], offers := [some ⟨0x28, 1⟩] } : State).rst.headD false
      = true := ⟨rfl, rfl⟩

/-- Each cause the invariant tells of, in a state that meets it. -/
theorem witness_StepKeepsInvariant :
    faultedUnit.Inv ∧ (unit d16 5).Inv ∧ ((unit d16 5).raiseFault .illegalCmd ⟨0x42, 3⟩).Inv ∧
    ((unit d16 5).raiseFault .cvtRange ⟨0x11, 0x40E0000000000000⟩).Inv ∧
    ((unit d13f19 5).raiseFault .unsupported ⟨0x40, 0⟩).Inv ∧
    ((unit d10f22 5).raiseFault .unsupported ⟨0x41, 0⟩).Inv ∧
    (∃ t, step faultedUnit = .next t) := by
  refine ⟨?_, ?_, ?_, ?_, ?_, ?_, ⟨_, rfl⟩⟩
  · exact ⟨by decide, by decide, by unfold Status.flagsExclusive; decide, by decide, by decide⟩
  · exact ⟨by decide, by decide, by unfold Status.flagsExclusive; decide, by decide, by decide⟩
  · exact ⟨by decide, by decide, by unfold Status.flagsExclusive; decide, .unassignedOpcode, by decide⟩
  · exact ⟨by decide, by decide, by unfold Status.flagsExclusive; decide, by decide, by decide⟩
  · exact ⟨by decide, by decide, by unfold Status.flagsExclusive; decide, .inl ⟨by decide, by decide⟩⟩
  · exact ⟨by decide, by decide, by unfold Status.flagsExclusive; decide, .inr ⟨by decide, by decide⟩⟩

/-- A SIN of 0.5 in FXU-D16F16 in its last cycle. -/
def sinLast : State :=
  State.engineEdge { unit d16 32768 with seq := .busy (encode (.sin 0)) 0 } (encode (.sin 0)) 0 0

/-- A COS of 0.5 in FXU-D16F16 in its last cycle. -/
def cosLast : State :=
  State.engineEdge { unit d16 32768 with seq := .busy (encode (.cos 0)) 0 } (encode (.cos 0)) 0 0

theorem sinLast_engineHolds : sinLast.engineHolds := by
  intro c left h
  cases h
  exact .inr ⟨⟨{ TrigTemps.zero d16.W with pos := 10 }, rfl⟩, le_refl 10, fun _ => rfl⟩

theorem cosLast_engineHolds : cosLast.engineHolds := by
  intro c left h
  cases h
  exact .inr ⟨⟨{ TrigTemps.zero d16.W with pos := 9 }, rfl⟩, le_refl 9, fun _ => rfl⟩

theorem witness_StepKeepsEngine : sinLast.engineHolds ∧ ∃ t, step sinLast = .next t :=
  ⟨sinLast_engineHolds, _, rfl⟩

theorem witness_LastCycleHoldsPowerChain :
    (sinLast.engineHolds ∧ sinLast.rst.headD false = false ∧ sinLast.seq = .busy (encode (.sin 0)) 0 ∧
      sinAvailable sinLast.config = true) ∧
    (cosLast.engineHolds ∧ cosLast.rst.headD false = false ∧ cosLast.seq = .busy (encode (.cos 0)) 0 ∧
      cosAvailable cosLast.config = true) :=
  ⟨⟨sinLast_engineHolds, rfl, rfl, by decide⟩, ⟨cosLast_engineHolds, rfl, rfl, by decide⟩⟩

/-- Program P3, steps 1 to 4, with an edge without an offer: its host offers a command the faulted unit does not
accept. -/
theorem witness_RunsAreSequential :
    let s : State :=
      { State.reset with
        offers := [some ⟨0x11, 0x3FE0000000000000⟩, none, some ⟨0x41, 0⟩, some ⟨0x2B, 0⟩, some ⟨0, 0⟩]
        rst := [false, false, false] }
    s.seq = .idle ∧ ∀ l ∈ s.rst, l = false := ⟨rfl, by decide⟩

theorem witness_FetchWordRunsNext :
    decodeTableWord 32 0x38 = some (.cmp 0) ∧ decodeTableWord 32 0x41 = some (.cos 0) := by decide

end Sys2Proof.Tests
end

/-! PROOFS. The configuration: the storage width and the represented values (spec/00_scope.md R6, R9). -/

namespace Sys2Proof

/-- `resolve` answers no width above one that holds its argument: with `resolve_cases`, the smallest (R6). -/
theorem resolve_le_of_mem {bits n : Nat} (hn : n ∈ [8, 16, 32, 64]) (h : bits ≤ n) : resolve bits ≤ n := by
  have hr := resolve_cases bits
  simp only [List.mem_cons, List.not_mem_nil, or_false] at hn
  omega

/-- Settles O6: the width and the fit are laws of every configuration, and `resolve` answers the smallest width. -/
theorem storageWidthIsSmallest : Obligations.StorageWidthIsSmallest := by
  intro c
  refine ⟨by simpa using c.W_cases, c.fits, fun n hn h => resolve_le_of_mem ?_ h⟩
  simp only [List.mem_cons] at hn ⊢
  tauto

namespace Machine

/-- The W-bit signed range is what the words read as. -/
theorem exists_sint_eq_iff_inRange (c : Config) (k : ℤ) : (∃ q : BitVec c.W, sint q = k) ↔ inRange c k := by
  constructor
  · rintro ⟨q, rfl⟩
    exact ⟨(sint_range c q).1, Int.le_sub_one_of_lt (sint_range c q).2⟩
  · rintro ⟨hl, hu⟩
    exact ⟨word c.W k, sint_word_of_range c k hl (Int.lt_of_le_sub_one hu)⟩

/-- The represented values are the scaled integers of the W-bit signed range (R9). -/
theorem exists_scaledValue_eq_iff (c : Config) (v : ℚ) :
    (∃ q : BitVec c.W, scaledValue c q = v) ↔ ∃ k : ℤ, inRange c k ∧ v = k / 2 ^ c.F := by
  constructor
  · rintro ⟨q, rfl⟩
    exact ⟨sint q, (exists_sint_eq_iff_inRange c _).1 ⟨q, rfl⟩, rfl⟩
  · rintro ⟨k, hk, rfl⟩
    obtain ⟨q, rfl⟩ := (exists_sint_eq_iff_inRange c k).2 hk
    exact ⟨q, rfl⟩

/-- Scaling by `2^F` keeps the order of the signed words (R9). -/
theorem scaledValue_lt_iff (c : Config) (a b : BitVec c.W) :
    scaledValue c a < scaledValue c b ↔ sint a < sint b := by
  have hF : (0 : ℚ) < 2 ^ c.F := by positivity
  rw [scaledValue, scaledValue, div_lt_div_iff_of_pos_right hF, Int.cast_lt]

/-- The bound of the represented values, scaled: no truncation hides in `W - 1 - F`, as `F < W`. -/
theorem range_bound_mul_scale (c : Config) : (2 : ℚ) ^ (c.W - 1 - c.F) * 2 ^ c.F = 2 ^ (c.W - 1) := by
  rw [← pow_add, Nat.sub_add_cancel (Nat.le_sub_one_of_lt c.F_lt_W)]

theorem neg_bound_le_scaledValue (c : Config) (a : BitVec c.W) :
    -(2 : ℚ) ^ (c.W - 1 - c.F) ≤ scaledValue c a := by
  have hl : (-2 ^ (c.W - 1) : ℚ) ≤ sint a := by exact_mod_cast (sint_range c a).1
  rw [scaledValue, le_div_iff₀ (by positivity), neg_mul, range_bound_mul_scale]
  exact hl

theorem scaledValue_le_bound (c : Config) (a : BitVec c.W) :
    scaledValue c a ≤ (2 : ℚ) ^ (c.W - 1 - c.F) - 1 / 2 ^ c.F := by
  have hF : (0 : ℚ) < 2 ^ c.F := by positivity
  have hu : (sint a : ℚ) ≤ 2 ^ (c.W - 1) - 1 := by
    exact_mod_cast Int.le_sub_one_of_lt (sint_range c a).2
  rw [scaledValue, div_le_iff₀ hF, sub_mul, range_bound_mul_scale, one_div_mul_cancel hF.ne']
  exact hu

/-- The value 1.0 is representable iff the sign bit and one more bit stand above the fraction (R9). -/
theorem inRange_oneUnit_iff (c : Config) : inRange c (oneUnit c) ↔ c.F ≤ c.W - 2 := by
  have hpow : (2 : ℤ) ^ c.F < 2 ^ (c.W - 1) ↔ c.F < c.W - 1 := pow_lt_pow_iff_right₀ (by norm_num)
  have hF : (0 : ℤ) < 2 ^ c.F := by positivity
  have hW : (0 : ℤ) < 2 ^ (c.W - 1) := by positivity
  have hfit := c.fits
  have hb := c.bounds
  unfold inRange oneUnit
  omega

/-- Settles O9: the set, the bounds, the order and the representability of one unit, each a lemma above. -/
theorem scaledValueRangeAndOrder : Obligations.ScaledValueRangeAndOrder := fun c a b =>
  ⟨rfl, exists_scaledValue_eq_iff c, neg_bound_le_scaledValue c a, scaledValue_le_bound c a,
    scaledValue_lt_iff c a b, inRange_oneUnit_iff c⟩

end Machine

end Sys2Proof

/-! PROOFS. Reset (spec/10_state.md R45; spec/70_reset_and_hazards.md R230). -/

namespace Sys2Proof.Machine

/-- With `rst = 1` the unit accepts nothing, IDLE or not (R230). -/
theorem cmdReady_of_rst (s : State) (h : s.rstPin = true) : s.cmdReady = false := by
  rw [State.cmdReady, h, Bool.not_true, Bool.and_false]

theorem busy_of_idle (s : State) (h : s.seq = .idle) : s.busy = false := by
  simp only [State.busy, h]

/-- The port word of an IDLE unit whose STATUS fields are clear: BUSY is no stored field, so SEQ is needed too (R36). -/
theorem statusPort_eq_zero (s : State) (hst : s.status = Status.zero) (hseq : s.seq = .idle) :
    s.statusPort = 0 := by
  rw [State.statusPort, hst, busy_of_idle s hseq]
  rfl

/-- Settles O53: the edge is `resetEdge`, whose fields are the reset values whatever SEQ was before. -/
theorem resetEdgeGivesResetValues : Obligations.ResetEdgeGivesResetValues := by
  intro s hrst
  have hacc : sint s.hostEdge.resetEdge.acc = 0 := (sint_eq_zero _ _).2 (State.resetEdge_acc _)
  have hstatus : s.hostEdge.resetEdge.statusPort = 0 :=
    statusPort_eq_zero _ (State.resetEdge_status _) (State.resetEdge_seq _)
  exact ⟨cmdReady_of_rst s hrst, s.hostEdge.resetEdge, step_of_rst s hrst, hacc, rfl, hstatus, rfl, rfl, rfl, rfl⟩

end Sys2Proof.Machine

/-! PROOFS. Encoding: the words the decoder takes and rejects, and the operand word that a command of operand form
"none" does not read (spec/30_encoding.md R80 to R89). -/

namespace Sys2Proof

/-- Form C (R80): a command word is a byte extended by zeros iff its reserved field is clear and the byte stands in its
opcode field. -/
theorem eq_zeroExtend_iff (w : CmdWord) (b : BitVec 8) : w = b.zeroExtend 32 ↔ rsvField w = 0 ∧ opField w = b := by
  constructor
  · rintro rfl
    exact Laws.EncodedForm.fields_of_zeroExtend b
  · rintro ⟨hr, rfl⟩
    have hlt : w.toNat / 256 = 0 := by
      have hr' := congrArg BitVec.toNat hr
      simp only [rsvField, BitVec.extractLsb'_toNat, Nat.shiftRight_eq_div_pow, BitVec.ofNat_eq_ofNat,
        BitVec.toNat_ofNat] at hr'
      omega
    apply BitVec.eq_of_toNat_eq
    simp only [opField, BitVec.zeroExtend, BitVec.toNat_setWidth, BitVec.extractLsb'_toNat, Nat.shiftRight_zero]
    omega

/-- Decoding undoes encoding (R89). -/
theorem decode_encode (i : Instr) : decode (encode i) = .ok i := by
  obtain ⟨hr, hop, ho⟩ := Laws.EncodedForm.of_encode i
  rw [decode, if_neg (not_not.2 hr), hop, ho]
  cases i <;> rfl

theorem encode_injective : Function.Injective encode := fun i j h =>
  Except.ok.inj <| (decode_encode i).symm.trans <| h ▸ decode_encode j

/-- A pair that decodes to `i` has the fields of `i`: the inversion of `decode` (R89). -/
theorem fields_of_decode {c : Command} {i : Instr} (h : decode c = .ok i) :
    rsvField c.cmd = 0 ∧ opField c.cmd = i.opcode ∧ c.opnd = i.operand := by
  unfold decode at h
  split at h
  · cases h
  · rename_i hr
    split at h <;> cases h
    all_goals
      rename_i hop
      exact ⟨not_not.1 hr, BitVec.eq_of_toNat_eq hop, rfl⟩

/-- A pair decodes to `i` iff it is the encoding of `i` (R82, R89). -/
theorem decode_eq_ok_iff (c : Command) (i : Instr) : decode c = .ok i ↔ c = encode i := by
  constructor
  · intro h
    obtain ⟨hr, hop, ho⟩ := fields_of_decode h
    have hcmd : c.cmd = i.opcode.zeroExtend 32 := (eq_zeroExtend_iff _ _).2 ⟨hr, hop⟩
    exact congrArg₂ Command.mk hcmd ho
  · rintro rfl
    exact decode_encode i

namespace Machine

/-- The 19 words of R82 are those of a clear reserved field and an opcode of the map. -/
theorem mem_words_iff (w : CmdWord) :
    w ∈ opcodeMap.map (BitVec.zeroExtend 32) ↔ rsvField w = 0 ∧ opField w ∈ opcodeMap := by
  simp only [List.mem_map, eq_comm (b := w), eq_zeroExtend_iff]
  constructor
  · rintro ⟨b, hb, hr, rfl⟩
    exact ⟨hr, hb⟩
  · rintro ⟨hr, hb⟩
    exact ⟨_, hb, hr, rfl⟩

theorem opcode_mem_opcodeMap (i : Instr) : i.opcode ∈ opcodeMap := by
  cases i <;> simp [Instr.opcode, opcodeMap]

/-- Every opcode of the map is some command's, with any operand word (R82). -/
theorem exists_instr_of_mem_opcodeMap (o : DataWord) :
    ∀ b ∈ opcodeMap, ∃ i : Instr, i.opcode = b ∧ i.operand = o := by
  simp only [opcodeMap, List.forall_mem_cons]
  exact ⟨⟨.nop o, rfl, rfl⟩, ⟨.ldq o, rfl, rfl⟩, ⟨.ldf o, rfl, rfl⟩, ⟨.toint o, rfl, rfl⟩, ⟨.tof o, rfl, rfl⟩,
    ⟨.pos o, rfl, rfl⟩, ⟨.neg o, rfl, rfl⟩, ⟨.abs o, rfl, rfl⟩, ⟨.add o, rfl, rfl⟩, ⟨.sub o, rfl, rfl⟩,
    ⟨.mul o, rfl, rfl⟩, ⟨.div o, rfl, rfl⟩, ⟨.inc o, rfl, rfl⟩, ⟨.dec o, rfl, rfl⟩, ⟨.incp o, rfl, rfl⟩,
    ⟨.decp o, rfl, rfl⟩, ⟨.cmp o, rfl, rfl⟩, ⟨.sin o, rfl, rfl⟩, ⟨.cos o, rfl, rfl⟩, nofun⟩

/-- The legal words are the 19 of R82, whatever the operand word. -/
theorem decode_ok_iff_mem_words (c : Command) :
    (∃ i, decode c = .ok i) ↔ c.cmd ∈ opcodeMap.map (BitVec.zeroExtend 32) := by
  simp only [decode_eq_ok_iff, List.mem_map]
  constructor
  · rintro ⟨i, rfl⟩
    exact ⟨i.opcode, opcode_mem_opcodeMap i, rfl⟩
  · rintro ⟨b, hb, hcmd⟩
    obtain ⟨i, rfl, ho⟩ := exists_instr_of_mem_opcodeMap c.opnd b hb
    exact ⟨i, congrArg₂ Command.mk hcmd.symm ho.symm⟩

/-- The illegal words are all the others (R86). -/
theorem decode_error_iff_not_mem_words (c : Command) :
    (∃ e, decode c = .error e) ↔ c.cmd ∉ opcodeMap.map (BitVec.zeroExtend 32) := by
  rw [← decode_ok_iff_mem_words]
  cases decode c <;> simp

/-- The two conditions of R86 name the illegal words. -/
theorem decode_error_iff_fields (c : Command) :
    (∃ e, decode c = .error e) ↔ rsvField c.cmd ≠ 0 ∨ opField c.cmd ∉ opcodeMap := by
  rw [decode_error_iff_not_mem_words, mem_words_iff, not_and_or]

/-- An illegal command does the fault entry with ILLEGAL_CMD (R86, R201). -/
theorem execute_of_decode_error {c : Command} {e : Illegal} (s : State) (h : decode c = .error e) :
    execute c s = .next (s.raiseFault .illegalCmd c) := by
  simp only [execute, h]

/-- Settles O2: the decoder takes the 19 words and no other, and the fault entry is `raiseFault`. -/
theorem illegalWordsFault : Obligations.IllegalWordsFault := fun c s =>
  ⟨decode_error_iff_fields c, decode_error_iff_not_mem_words c, fun ⟨_, he⟩ => execute_of_decode_error s he⟩

end Machine

/-- The same command transferred with the operand word `o` (R80). -/
def Instr.withOperand : Instr → DataWord → Instr
  | .nop _, o => .nop o
  | .ldq _, o => .ldq o
  | .ldf _, o => .ldf o
  | .toint _, o => .toint o
  | .tof _, o => .tof o
  | .pos _, o => .pos o
  | .neg _, o => .neg o
  | .abs _, o => .abs o
  | .add _, o => .add o
  | .sub _, o => .sub o
  | .mul _, o => .mul o
  | .div _, o => .div o
  | .inc _, o => .inc o
  | .dec _, o => .dec o
  | .incp _, o => .incp o
  | .decp _, o => .decp o
  | .cmp _, o => .cmp o
  | .sin _, o => .sin o
  | .cos _, o => .cos o

@[simp] theorem Instr.withOperand_opcode (i : Instr) (o : DataWord) : (i.withOperand o).opcode = i.opcode := by
  cases i <;> rfl

@[simp] theorem Instr.withOperand_operand (i : Instr) (o : DataWord) : (i.withOperand o).operand = o := by
  cases i <;> rfl

/-- The opcode fixes a command up to its operand word (R82). -/
theorem Instr.withOperand_of_opcode_eq {i j : Instr} (h : i.opcode = j.opcode) : i.withOperand j.operand = j :=
  encode_injective (by simp [encode, h])

namespace Machine

/-- Whether a command of operand form "none" faults does not hang on OPND (R85). -/
theorem faultOf_withOperand (c : Config) {i : Instr} (hi : i.form = .none) (o : DataWord) :
    faultOf c (i.withOperand o) = faultOf c i := by
  cases i with
  | ldq | ldf | add | sub | mul | div | cmp => cases hi
  | _ => rfl

/-- A command of operand form "none" that completes does not read OPND (R85). -/
theorem exec_withOperand_of_no_fault {i : Instr} (hi : i.form = .none) (o : DataWord) (s : State)
    (h : faultOf s.config i = none) : exec (i.withOperand o) s = exec i s := by
  cases i with
  | ldq | ldf | add | sub | mul | div | cmp => cases hi
  | sin =>
    have ha : sinAvailable s.config = true := by simpa [faultOf] using h
    exact (if_pos ha).trans (if_pos ha).symm
  | cos =>
    have ha : cosAvailable s.config = true := by simpa [faultOf] using h
    exact (if_pos ha).trans (if_pos ha).symm
  | _ => rfl

/-- Fault entries of the same cause and command word differ in FOPND alone (R206). -/
theorem raiseFault_eq_with_fopnd (s : State) (k : Cause) {c d : Command} (h : c.cmd = d.cmd) :
    s.raiseFault k d = { s.raiseFault k c with fopnd := d.opnd } := by
  simp only [State.raiseFault, h]

/-- Settles O5: the two commands fault alike; a fault entry differs in FOPND alone, a completion not at all. -/
theorem unusedOperandOnlyRecorded : Obligations.UnusedOperandOnlyRecorded := by
  intro i j s hi hop
  rw [← Instr.withOperand_of_opcode_eq hop]
  generalize j.operand = o
  have hf := faultOf_withOperand s.config hi o
  cases h : faultOf s.config i with
  | none =>
    obtain ⟨a, r, e, l, g, tm, n, hx, -⟩ := exec_of_no_fault i s h
    have hx' := (exec_withOperand_of_no_fault hi o s h).trans hx
    exact ⟨_, _, hx, hx', rfl, nofun, fun _ => rfl⟩
  | some k =>
    have hcmd : (encode i).cmd = (encode (i.withOperand o)).cmd := by simp [encode]
    refine ⟨_, _, exec_of_fault i s k h, exec_of_fault _ s k (hf.trans h), raiseFault_eq_with_fopnd s k hcmd,
      fun _ => ⟨rfl, rfl⟩, fun hne => absurd rfl hne⟩

end Machine

end Sys2Proof

/-! PROOFS. Construction and extraction: LDQ, LDF, TOINT and TOF (spec/40_construct_extract.md R101 to R105). -/

namespace Sys2Proof.Machine

/-! What each of the four commands does where it does not fault. -/

/-- LDQ completes from every state (R101). -/
theorem exec_ldq (s : State) (o : DataWord) :
    exec (.ldq o) s = .next
      { s with acc := operandQ s.config o, res := sext64 (operandQ s.config o), seq := .idle } := rfl

/-- LDF completes where its scaled value exists (R102); where it does not, `exec_of_fault` says what it does. -/
theorem exec_ldf_of_some {s : State} {o : DataWord} {v : ℤ} (h : ldfScaled s.config o = some v) :
    exec (.ldf o) s = .next
      { s with acc := word s.config.W v, res := sext64 (word s.config.W v), seq := .idle } := by
  simp only [exec, execLdf, h]
  rfl

/-- TOINT completes from every state (R103). -/
theorem exec_toint (s : State) (o : DataWord) :
    exec (.toint o) s = .next { s with res := word 64 (truncDiv (sint s.acc) (2 ^ s.config.F)), seq := .idle } := rfl

/-- TOF completes from every state (R104). -/
theorem exec_tof (s : State) (o : DataWord) :
    exec (.tof o) s = .next { s with res := f64Bits (sint s.acc) s.config.F, seq := .idle } := rfl

/-- Settles O13: ACC is the Q operand, the low W bits of OPND, and its sign extension keeps the value. -/
theorem ldqLoadsLowBits : Obligations.LdqLoadsLowBits := fun s o =>
  ⟨rfl, _, _, exec_ldq s o, BitVec.toNat_setWidth .., sint_sext64 ..⟩

/-! Rounding toward zero. -/

theorem truncRat_of_nonneg {q : ℚ} (h : 0 ≤ q) : truncRat q = ⌊q⌋ := if_pos h

theorem truncRat_of_neg {q : ℚ} (h : q < 0) : truncRat q = ⌈q⌉ := if_neg (not_le.2 h)

/-- Rounding toward zero stays between integer bounds that have zero between them. -/
theorem truncRat_between {q : ℚ} {a b : ℤ} (ha : a ≤ 0) (hb : 0 < b) (haq : (a : ℚ) ≤ q) (hqb : q < b) :
    a ≤ truncRat q ∧ truncRat q < b := by
  rcases le_or_gt 0 q with h | h
  · rw [truncRat_of_nonneg h]
    exact ⟨ha.trans (Int.floor_nonneg.2 h), Int.floor_lt.2 hqb⟩
  · rw [truncRat_of_neg h]
    have hc : ⌈q⌉ ≤ 0 := Int.ceil_le.2 (by exact_mod_cast h.le)
    exact ⟨by exact_mod_cast haq.trans (Int.le_ceil q), hc.trans_lt hb⟩

/-- Rounding toward zero moves a number by less than one. -/
theorem abs_sub_truncRat_lt_one (q : ℚ) : |q - truncRat q| < 1 := by
  rw [abs_sub_lt_iff]
  rcases le_or_gt 0 q with h | h
  · rw [truncRat_of_nonneg h]
    constructor <;> linarith [Int.floor_le q, Int.lt_floor_add_one q]
  · rw [truncRat_of_neg h]
    constructor <;> linarith [Int.le_ceil q, Int.ceil_lt_add_one q]

/-- Rounding toward zero gives zero or keeps the sign. -/
theorem truncRat_eq_zero_or_same_sign (q : ℚ) :
    truncRat q = 0 ∨ (0 < q ∧ 0 < truncRat q) ∨ (q < 0 ∧ truncRat q < 0) := by
  rcases lt_trichotomy q 0 with h | rfl | h
  · have hc : ⌈q⌉ ≤ 0 := Int.ceil_le.2 (by exact_mod_cast h.le)
    rw [truncRat_of_neg h]
    exact hc.eq_or_lt.imp_right fun hlt => .inr ⟨h, hlt⟩
  · exact .inl (by exact_mod_cast truncRat_intCast 0)
  · have hf : 0 ≤ ⌊q⌋ := Int.floor_nonneg.2 h.le
    rw [truncRat_of_nonneg h.le]
    exact hf.eq_or_lt.imp Eq.symm fun hlt => .inl ⟨h, hlt⟩

/-! LDF. -/

/-- LDF has a value where the operand is finite and its truncated scaled value is in range (R102). -/
theorem ldfScaled_eq_some_iff (c : Config) (o : DataWord) (v : ℤ) :
    ldfScaled c o = some v ↔
      ∃ x, (f64Value o).real = some x ∧ inRange c (truncRat (x * 2 ^ c.F)) ∧ truncRat (x * 2 ^ c.F) = v := by
  rw [ldfScaled_eq]
  cases (f64Value o).real <;> simp

/-- LDF has no value for NaN, an infinity, or a truncated scaled value out of range (R203). -/
theorem ldfScaled_eq_none_iff (c : Config) (o : DataWord) :
    ldfScaled c o = none ↔ ∀ x, (f64Value o).real = some x → ¬inRange c (truncRat (x * 2 ^ c.F)) := by
  simp only [Option.eq_none_iff_forall_ne_some, ne_eq, ldfScaled_eq_some_iff]
  constructor
  · exact fun h x hx hr => h _ ⟨x, hx, hr, rfl⟩
  · rintro h v ⟨x, hx, hr, -⟩
    exact h x hx hr

/-- A value LDF loads is in the W-bit range, so ACC holds it unchanged (R102). -/
theorem sint_word_of_inRange {c : Config} {v : ℤ} (h : inRange c v) : sint (word c.W v) = v :=
  sint_word_of_range c v h.1 (Int.lt_of_le_sub_one h.2)

/-- LDF without a value does the fault entry of CVT_RANGE (R203). -/
theorem exec_ldf_of_none {s : State} {o : DataWord} (h : ldfScaled s.config o = none) :
    exec (.ldf o) s = .next (s.raiseFault .cvtRange (encode (.ldf o))) :=
  exec_of_fault (.ldf o) s .cvtRange (if_pos h)

/-- Settles O14: the two clauses are the two cases of `ldfScaled`. -/
theorem ldfTruncatesOrFaults : Obligations.LdfTruncatesOrFaults := by
  intro s o
  refine ⟨rfl, fun x hx hr => ?_, fun h => exec_ldf_of_none ((ldfScaled_eq_none_iff _ o).2 h)⟩
  have hv : ldfScaled s.config o = some (truncRat (x * 2 ^ s.config.F)) :=
    (ldfScaled_eq_some_iff _ o _).2 ⟨x, hx, hr, rfl⟩
  exact ⟨_, _, exec_ldf_of_some hv, sint_word_of_inRange hr, sint_sext64 ..⟩

/-! TOINT. -/

/-- The quotient TOINT takes is the represented value rounded toward zero (R103). -/
theorem truncDiv_scale_eq_truncRat (c : Config) (a : BitVec c.W) :
    truncDiv (sint a) (2 ^ c.F) = truncRat (scaledValue c a) := by
  have h := truncRat_intCast_div (sint a) (2 ^ c.F) (by positivity)
  push_cast at h
  exact h.symm

/-- The represented value rounded toward zero keeps the bounds of R103. -/
theorem truncRat_scaledValue_bounds (c : Config) (a : BitVec c.W) :
    -2 ^ (c.W - 1 - c.F) ≤ truncRat (scaledValue c a) ∧ truncRat (scaledValue c a) < 2 ^ (c.W - 1 - c.F) := by
  have hpos : (0 : ℤ) < 2 ^ (c.W - 1 - c.F) := by positivity
  have hunit : (0 : ℚ) < 1 / 2 ^ c.F := by positivity
  refine truncRat_between (by omega) hpos ?_ ?_ <;> push_cast
  · exact neg_bound_le_scaledValue c a
  · exact (scaledValue_le_bound c a).trans_lt (by linarith)

/-- Settles O15: the quotient is the rounded value, whose bounds lie within 64 bits. -/
theorem tointTruncates : Obligations.TointTruncates := by
  intro s o
  obtain ⟨hl, hu⟩ := truncRat_scaledValue_bounds s.config s.acc
  have hW := s.config.W_le
  have hpow : (2 : ℤ) ^ (s.config.W - 1 - s.config.F) ≤ 2 ^ 63 := pow_le_pow_right₀ (by norm_num) (by omega)
  have hr : sint (word 64 (truncDiv (sint s.acc) (2 ^ s.config.F))) = truncRat (scaledValue s.config s.acc) := by
    rw [truncDiv_scale_eq_truncRat]
    exact BitVec.toInt_ofInt_eq_self (by norm_num) (by omega) (by omega)
  refine ⟨rfl, _, exec_toint s o, hr, ?_⟩
  rw [hr]
  exact ⟨hl, Int.le_sub_one_of_lt hu⟩

/-! TOF. -/

/-- A word whose biased exponent is neither 0 nor all ones is a normal number (R14). -/
theorem f64Value_of_normal {w : DataWord} (h0 : f64Exp w ≠ 0) (h1 : f64Exp w ≠ 2047) :
    f64Value w = .finite (f64Sign w) (2 ^ 52 + f64Frac w) (f64Exp w - 1075) := by
  rw [f64Value, if_neg h1, if_neg h0]

/-- The significand of a number below `2^53`, moved up so that its leading one stands at bit 52 (R14). -/
theorem hidden_add_fraction {m : ℕ} (hm : m ≠ 0) (h : m < 2 ^ 53) :
    m.log2 ≤ 52 ∧ (m - 2 ^ m.log2) * 2 ^ (52 - m.log2) < 2 ^ 52 ∧
      2 ^ 52 + (m - 2 ^ m.log2) * 2 ^ (52 - m.log2) = m * 2 ^ (52 - m.log2) := by
  have hl : m.log2 ≤ 52 := Nat.le_of_lt_succ ((Nat.log2_lt hm).2 h)
  have hlead : 2 ^ m.log2 ≤ m := Nat.log2_self_le hm
  have hbelow : m - 2 ^ m.log2 < 2 ^ m.log2 := by
    have hlt : m < 2 ^ (m.log2 + 1) := Nat.lt_log2_self
    omega
  have h52 : 2 ^ m.log2 * 2 ^ (52 - m.log2) = 2 ^ 52 := by rw [← pow_add, Nat.add_sub_cancel' hl]
  refine ⟨hl, ?_, ?_⟩
  · rw [← h52]
    exact Nat.mul_lt_mul_of_pos_right hbelow (by positivity)
  · rw [← h52, ← add_mul, Nat.add_sub_cancel' hlead]

/-- The three fields of `f64_bits(n / 2^f)` for `n != 0`, before any of them is known to fit (R14). -/
theorem fields_of_f64Bits {n : ℤ} (f : ℕ) (hm : n.natAbs ≠ 0) :
    f64Sign (f64Bits n f) = decide (n < 0) ∧ f64Exp (f64Bits n f) = (n.natAbs.log2 + 1023 - f) % 2 ^ 11 ∧
      f64Frac (f64Bits n f) = (n.natAbs - 2 ^ n.natAbs.log2) * 2 ^ (52 - n.natAbs.log2) % 2 ^ 52 := by
  have hbits : f64Bits n f = _ := if_neg hm
  rw [hbits, ← BitVec.toNat_ofNat, ← BitVec.toNat_ofNat]
  exact f64_fields_of_append _ _ _

/-- What `f64_bits(n / 2^f)` encodes for `n != 0`: the normal number of the moved significand (R14, R104). -/
theorem f64Value_f64Bits {n : ℤ} {f : ℕ} (hn : n ≠ 0) (h : n.natAbs < 2 ^ 53) (hf : f ≤ 1022) :
    f64Value (f64Bits n f) =
      .finite (decide (n < 0)) (n.natAbs * 2 ^ (52 - n.natAbs.log2)) (n.natAbs.log2 - 52 - f) := by
  have hm : n.natAbs ≠ 0 := Int.natAbs_ne_zero.2 hn
  obtain ⟨hl, hfrac, hsig⟩ := hidden_add_fraction hm h
  obtain ⟨hsign, hexp, hfr⟩ := fields_of_f64Bits f hm
  rw [Nat.mod_eq_of_lt (by omega)] at hexp
  rw [Nat.mod_eq_of_lt hfrac] at hfr
  rw [f64Value_of_normal (by omega) (by omega), hsign, hexp, hfr, hsig]
  congr 1
  omega

/-- `f64_bits(n / 2^f)` is exact (R104). -/
theorem f64Bits_real {n : ℤ} {f : ℕ} (h : n.natAbs < 2 ^ 53) (hf : f ≤ 1022) :
    (f64Value (f64Bits n f)).real = some ((n : ℚ) / 2 ^ f) := by
  rcases eq_or_ne n 0 with rfl | hn
  · have hzero : f64Value 0 = .finite false 0 (-1074) := by decide
    have hbits : f64Bits 0 f = 0 := rfl
    rw [hbits, hzero]
    simp [F64.real]
  · obtain ⟨hl, -, -⟩ := hidden_add_fraction (Int.natAbs_ne_zero.2 hn) h
    have hscale : (2 : ℚ) ^ (52 - n.natAbs.log2) * 2 ^ ((n.natAbs.log2 : ℤ) - 52 - f) = 1 / 2 ^ f := by
      rw [← zpow_natCast, ← zpow_add₀ two_ne_zero, one_div, ← zpow_natCast, ← zpow_neg]
      congr 1
      omega
    have hsign : (if decide (n < 0) then -1 else 1 : ℚ) * n.natAbs = n := by
      rcases hn.lt_or_gt with hlt | hgt
      · simp [hlt, abs_of_neg]
      · simp [hgt.le, abs_of_pos, hgt]
    rw [f64Value_f64Bits hn h hf, F64.real, Nat.cast_mul, ← mul_assoc, hsign, Nat.cast_pow, Nat.cast_ofNat, mul_assoc,
      hscale, mul_one_div]

/-- What TOF puts in RES stands for the value of ACC (R104). -/
theorem f64Bits_real_scaledValue (c : Config) (a : BitVec c.W) :
    (f64Value (f64Bits (sint a) c.F)).real = some (scaledValue c a) := by
  obtain ⟨hl, hu⟩ := sint_range c a
  have hW := c.W_le
  have hF := c.F_lt_W
  have hpow : (2 : ℤ) ^ (c.W - 1) ≤ 2 ^ 31 := pow_le_pow_right₀ (by norm_num) (by omega)
  exact f64Bits_real (by omega) (by omega)

/-- Settles O16: the magnitude of ACC is below `2^53`, so the conversion is exact. -/
theorem tofIsExact : Obligations.TofIsExact := fun s o =>
  ⟨rfl, _, exec_tof s o, f64Bits_real_scaledValue s.config s.acc, fun h => by rw [h]; rfl⟩

/-! LDF then TOF. -/

/-- An LDF that leaves SEQ in IDLE had a value. -/
theorem exists_ldfScaled_of_idle {s t : State} {o : DataWord} (h : exec (.ldf o) s = .next t) (ht : t.seq = .idle) :
    ∃ v, ldfScaled s.config o = some v := by
  rw [← Option.ne_none_iff_exists']
  intro hnone
  rw [exec_ldf_of_none hnone] at h
  cases h
  cases ht

/-- A number truncated at the scale `2^f` and read back is less than one unit away (R105). -/
theorem abs_sub_truncRat_div_lt {x : ℚ} {f : ℕ} {v : ℤ} (h : truncRat (x * 2 ^ f) = v) :
    |x - v / 2 ^ f| < 1 / 2 ^ f := by
  have hf : (0 : ℚ) < 2 ^ f := by positivity
  rw [sub_div' hf.ne', abs_div, abs_of_pos hf, div_lt_div_iff_of_pos_right hf, ← h]
  exact abs_sub_truncRat_lt_one _

/-- A number truncated at the scale `2^f` and read back is zero or has the sign it had (R105). -/
theorem truncRat_div_eq_zero_or_same_sign {x : ℚ} {f : ℕ} {v : ℤ} (h : truncRat (x * 2 ^ f) = v) :
    (v : ℚ) / 2 ^ f = 0 ∨ (0 < x ∧ (0 : ℚ) < v / 2 ^ f) ∨ (x < 0 ∧ (v : ℚ) / 2 ^ f < 0) := by
  have hf : (0 : ℚ) < 2 ^ f := by positivity
  have hsign := truncRat_eq_zero_or_same_sign (x * 2 ^ f)
  rw [h] at hsign
  rcases hsign with rfl | ⟨hx, hv⟩ | ⟨hx, hv⟩
  · exact .inl (by simp)
  · exact .inr (.inl ⟨pos_of_mul_pos_left hx hf.le, div_pos (by exact_mod_cast hv) hf⟩)
  · exact .inr (.inr ⟨neg_of_mul_neg_left hx hf.le, div_neg_of_neg_of_pos (by exact_mod_cast hv) hf⟩)

/-- Settles O17: TOF is exact, so what is lost is what LDF truncates. -/
theorem ldfTofRoundTrip : Obligations.LdfTofRoundTrip := by
  intro s t u o o' x hx hldf hidle htof
  obtain ⟨v, hv⟩ := exists_ldfScaled_of_idle hldf hidle
  obtain ⟨x', hx', hr, htrunc⟩ := (ldfScaled_eq_some_iff _ _ _).1 hv
  obtain rfl : x = x' := Option.some.inj (hx.symm.trans hx')
  cases (exec_ldf_of_some hv).symm.trans hldf
  cases (exec_tof _ o').symm.trans htof
  refine ⟨_, f64Bits_real_scaledValue s.config _, ?_⟩
  rw [scaledValue, sint_word_of_inRange (htrunc ▸ hr)]
  exact ⟨abs_sub_truncRat_div_lt htrunc, truncRat_div_eq_zero_or_same_sign htrunc⟩

end Sys2Proof.Machine

/-! PROOFS. Unary and binary arithmetic: POS, NEG, ABS, ADD, SUB, MUL and DIV (spec/41_arithmetic.md R130 to R136). -/

namespace Sys2Proof.Machine

/-! What a command that writes ACC new does, and the commands whose value is a copy, a sum or a difference. -/

/-- A command that "writes ACC new" (R44) leaves the wanted value in ACC and its sign extension in RES. The command's
meaning comes in by `hx`, its value by `hv`. -/
theorem exists_of_setAcc {i : Instr} {s : State} {v : BitVec s.config.W} {k : ℤ}
    (hx : exec i s = .next (s.setAcc v).complete) (hv : sint v = k) :
    ∃ (a : BitVec s.config.W) (r : DataWord), exec i s = .next { s with acc := a, res := r, seq := .idle } ∧
      sint a = k ∧ sint r = sint a :=
  ⟨v, sext64 v, hx, hv, sint_sext64 ..⟩

/-- Settles O19: RES is the sign extension of ACC, which keeps its value. -/
theorem posCopies : Obligations.PosCopies := fun s _ => ⟨rfl, sext64 s.acc, rfl, sint_sext64 ..⟩

/-- Settles O21: the value of ADD is `addF`, which wraps. -/
theorem addWraps : Obligations.AddWraps := fun _ _ => ⟨rfl, exists_of_setAcc rfl (sint_addF ..)⟩

/-- Settles O22: the value of SUB is `subF`, which wraps. -/
theorem subWraps : Obligations.SubWraps := fun _ _ => ⟨rfl, exists_of_setAcc rfl (sint_subF ..)⟩

/-! NEG and ABS. -/

/-- The value of NEG is the two's-complement negation of the word (R131). -/
theorem negF_eq_neg (c : Config) (a : BitVec c.W) : negF c a = -a :=
  BitVec.ofInt_neg.trans (congrArg _ BitVec.ofInt_toInt)

/-- The minimum wraps to itself (R131). -/
theorem negF_of_min (c : Config) (a : BitVec c.W) (h : sint a = -2 ^ (c.W - 1)) : negF c a = a := by
  obtain rfl : a = BitVec.intMin c.W := BitVec.eq_of_toInt_eq (h.trans (BitVec.toInt_intMin_of_pos c.W_pos).symm)
  rw [negF_eq_neg, BitVec.neg_intMin]

theorem absF_of_nonneg (c : Config) (a : BitVec c.W) (h : 0 ≤ sint a) : absF c a = a :=
  (if_pos h).trans BitVec.ofInt_toInt

theorem absF_of_neg (c : Config) (a : BitVec c.W) (h : sint a < 0) : absF c a = negF c a :=
  if_neg (not_le.2 h)

theorem sint_absF (c : Config) (a : BitVec c.W) :
    sint (absF c a) = if 0 ≤ sint a then sint a else (-sint a).bmod (2 ^ c.W) := by
  split
  · rw [absF_of_nonneg c a ‹_›]
  · rw [absF_of_neg c a (not_le.1 ‹_›), sint_negF]

/-- The minimum is negative, so ABS wraps it as NEG does (R136). -/
theorem absF_of_min (c : Config) (a : BitVec c.W) (h : sint a = -2 ^ (c.W - 1)) : absF c a = a := by
  have hneg : sint a < 0 := by
    rw [h]
    exact neg_lt_zero.2 (by positivity)
  rw [absF_of_neg c a hneg, negF_of_min c a h]

/-- Settles O20: the value of NEG is `negF`, which wraps and has the minimum as a fixed point. -/
theorem negWraps : Obligations.NegWraps := fun s _ =>
  ⟨rfl, negF s.config s.acc, _, rfl, sint_negF .., sint_sext64 .., negF_of_min _ _⟩

/-- Settles O25: the value of ABS is `absF`, by the sign of ACC a copy or the negation. -/
theorem absWraps : Obligations.AbsWraps := fun s _ =>
  ⟨rfl, absF s.config s.acc, _, rfl, sint_absF .., sint_sext64 .., absF_of_min _ _⟩

/-! MUL. -/

/-- The arithmetic right shift by `n` is the exact quotient by `2^n` rounded toward minus infinity (R12). -/
theorem asr_eq_floor (v : ℤ) (n : ℕ) : asr v n = ⌊(v : ℚ) / 2 ^ n⌋ := by
  have h := Rat.floor_intCast_div_natCast v (2 ^ n)
  push_cast at h
  rw [h, asr, floorDiv, Int.fdiv_eq_ediv_of_nonneg v (by positivity)]

/-- The product before narrowing is the exact one at the scale `2^F`, rounded toward minus infinity (R134). -/
theorem mulExact_eq_floor (c : Config) (a b : ℤ) : mulExact c a b = ⌊(a * b : ℚ) / 2 ^ c.F⌋ := by
  rw [mulExact, asr_eq_floor, Int.cast_mul]

/-- Settles O23: the value of MUL is `mulF`, the rounded product wrapped. -/
theorem mulFloorsAndWraps : Obligations.MulFloorsAndWraps := fun s o =>
  ⟨rfl, exists_of_setAcc rfl ((sint_mulF ..).trans (by rw [mulExact_eq_floor, operandQ]))⟩

/-! DIV. -/

theorem roundAway_of_nonneg {q : ℚ} (h : 0 ≤ q) : roundAway q = ⌊q + 1 / 2⌋ := if_pos h

theorem roundAway_of_neg {q : ℚ} (h : q < 0) : roundAway q = ⌈q - 1 / 2⌉ := if_neg (not_le.2 h)

/-- Rounding to the nearest with ties away from zero does not depend on the sign. -/
theorem roundAway_neg (q : ℚ) : roundAway (-q) = -roundAway q := by
  rcases lt_trichotomy q 0 with h | rfl | h
  · rw [roundAway_of_neg h, roundAway_of_nonneg (neg_nonneg.2 h.le), ← Int.floor_neg, neg_sub', sub_neg_eq_add]
  · rw [neg_zero, roundAway_of_nonneg le_rfl]
    norm_num
  · rw [roundAway_of_nonneg h.le, roundAway_of_neg (neg_neg_of_pos h), ← Int.ceil_neg, neg_add']

/-- The heart of R135, where nothing is negative: moving the dividend up by half the divisor, rounded down, makes the
truncated quotient the nearest one. -/
theorem add_half_tdiv_eq_roundAway {t b : ℤ} (ht : 0 ≤ t) (hb : 0 < b) :
    (t + b.tdiv 2).tdiv b = roundAway ((t : ℚ) / b) := by
  have hbq : (0 : ℚ) < b := by exact_mod_cast hb
  have htq : (0 : ℚ) ≤ t := by exact_mod_cast ht
  have hhalf : ⌊(b : ℚ) / 2⌋ = b / 2 := by exact_mod_cast Rat.floor_intCast_div_natCast b 2
  have hmove : (t : ℚ) / b + 1 / 2 = (t + b / 2) / b := by field_simp
  calc (t + b.tdiv 2).tdiv b
      = (t + b / 2) / b := by
        rw [Int.tdiv_eq_ediv_of_nonneg hb.le, Int.tdiv_eq_ediv_of_nonneg (by omega)]
    _ = ⌊((t : ℚ) + b / 2) / b⌋ := by
        rw [Int.floor_div_cast_of_nonneg hb.le, Int.floor_intCast_add, hhalf]
    _ = roundAway ((t : ℚ) / b) := by
        rw [roundAway_of_nonneg (div_nonneg htq hbq.le), hmove]

/-- The signed half by which DIV moves a dividend, and the quotient it takes then, for every choice of signs (R135):
each of the four is the case of no sign, negated where one of the two is negative. -/
theorem moved_tdiv_eq_roundAway {b : ℤ} (t : ℤ) (hne : b ≠ 0) :
    (if (t ≥ 0 ∧ b ≥ 0) ∨ (t < 0 ∧ b < 0) then t + b.tdiv 2 else t - b.tdiv 2).tdiv b = roundAway ((t : ℚ) / b) := by
  rcases lt_or_ge t 0 with ht | ht <;> rcases lt_or_gt_of_ne hne with hb | hb
  · have h := add_half_tdiv_eq_roundAway (neg_nonneg.2 ht.le) (neg_pos.2 hb)
    rw [if_pos (by omega)]
    rwa [Int.neg_tdiv, ← neg_add, Int.neg_tdiv_neg, Int.cast_neg, Int.cast_neg, neg_div_neg_eq] at h
  · have h := add_half_tdiv_eq_roundAway (neg_nonneg.2 ht.le) hb
    rw [if_neg (by omega)]
    rwa [neg_add_eq_sub, ← neg_sub, Int.neg_tdiv, Int.cast_neg, neg_div, roundAway_neg, neg_inj] at h
  · have h := add_half_tdiv_eq_roundAway ht (neg_pos.2 hb)
    rw [if_neg (by omega)]
    rwa [Int.neg_tdiv, ← sub_eq_add_neg, Int.tdiv_neg, Int.cast_neg, div_neg, roundAway_neg, neg_inj] at h
  · rw [if_pos (by omega)]
    exact add_half_tdiv_eq_roundAway ht hb

/-- The quotient before narrowing is the exact one at the scale `2^F`, rounded to the nearest, ties away from zero
(R135). -/
theorem divExact_eq_roundAway (c : Config) (a : ℤ) {b : ℤ} (hb : b ≠ 0) :
    divExact c a b = roundAway ((a * 2 ^ c.F : ℚ) / b) := by
  have h := moved_tdiv_eq_roundAway (a * 2 ^ c.F) hb
  push_cast at h
  exact h

/-- DIV completes where its operand is not zero (R135). -/
theorem exec_div_of_ne_zero {s : State} {o : DataWord} (h : sint (operandQ s.config o) ≠ 0) :
    exec (.div o) s = .next (s.setAcc (divF s.config s.acc (operandQ s.config o))).complete := if_neg h

/-- DIV by zero does the fault entry of DIV_ZERO (R202). -/
theorem exec_div_of_eq_zero {s : State} {o : DataWord} (h : sint (operandQ s.config o) = 0) :
    exec (.div o) s = .next (s.raiseFault .divZero (encode (.div o))) :=
  exec_of_fault (.div o) s .divZero (if_pos h)

/-- Settles O24: the Q operand is not zero and the rounded quotient is wrapped, or it is zero and DIV faults. -/
theorem divRoundsOrFaults : Obligations.DivRoundsOrFaults := by
  intro s o
  refine ⟨rfl, fun h => ?_, fun h => exec_div_of_eq_zero ((sint_eq_zero ..).2 h)⟩
  have hb : sint (operandQ s.config o) ≠ 0 := mt (sint_eq_zero ..).1 h
  exact exists_of_setAcc (exec_div_of_ne_zero hb) (by rw [sint_divF, divExact_eq_roundAway _ _ hb, operandQ])

end Sys2Proof.Machine

/-! PROOFS. Increment, decrement and comparison: INC, DEC, INCP, DECP and CMP (spec/42_incdec_compare.md R160 to
R164). -/

namespace Sys2Proof.Machine

/-! The prefix forms write ACC new as ADD and SUB do; the postfix forms keep its old value in RES. -/

/-- Settles O28: the value of INC is `incF`, one unit more, wrapped. -/
theorem incAddsOneUnit : Obligations.IncAddsOneUnit := fun _ _ => ⟨rfl, exists_of_setAcc rfl (sint_incF ..)⟩

/-- Settles O29: the value of DEC is `decF`, one unit less, wrapped. -/
theorem decSubtractsOneUnit : Obligations.DecSubtractsOneUnit := fun _ _ =>
  ⟨rfl, exists_of_setAcc rfl (sint_decF ..)⟩

/-- A postfix command leaves the wanted value in ACC and, in RES, the sign extension of what ACC held before. The
command's meaning comes in by `hx`, its value by `hv`. -/
theorem exists_of_setAccRes_old {i : Instr} {s : State} {v : BitVec s.config.W} {k : ℤ}
    (hx : exec i s = .next (s.setAccRes v (sext64 s.acc)).complete) (hv : sint v = k) :
    ∃ (a : BitVec s.config.W) (r : DataWord), exec i s = .next { s with acc := a, res := r, seq := .idle } ∧
      sint a = k ∧ sint r = sint s.acc :=
  ⟨v, sext64 s.acc, hx, hv, sint_sext64 ..⟩

/-- Settles O30: INCP writes `incF` to ACC, as INC does, and returns the old value. -/
theorem incpReturnsOldValue : Obligations.IncpReturnsOldValue := fun _ _ =>
  ⟨rfl, exists_of_setAccRes_old rfl (sint_incF ..)⟩

/-- Settles O31: DECP writes `decF` to ACC, as DEC does, and returns the old value. -/
theorem decpReturnsOldValue : Obligations.DecpReturnsOldValue := fun _ _ =>
  ⟨rfl, exists_of_setAccRes_old rfl (sint_decF ..)⟩

/-! CMP. -/

/-- CMP completes from every state, with the three flags of the comparison of ACC with the Q operand (R164). -/
theorem exec_cmp (s : State) (o : DataWord) :
    exec (.cmp o) s = .next (s.compare (sint s.acc) (sint (operandQ s.config o))).complete := rfl

/-- Exactly one of the three flags of a comparison is 1: the trichotomy of the integers (R164). -/
theorem exactly_one_compare_flag (a b : ℤ) :
    ((decide (a = b) && !decide (a < b) && !decide (a > b)) || (!decide (a = b) && decide (a < b) && !decide (a > b)) ||
      (!decide (a = b) && !decide (a < b) && decide (a > b))) = true := by
  rcases lt_trichotomy a b with h | rfl | h
  · simp [h, h.ne, h.le]
  · simp
  · simp [h, h.ne', h.le]

/-- Settles O32: each flag is the truth of its comparison, and the integers are totally ordered. -/
theorem cmpSetsFlags : Obligations.CmpSetsFlags := fun s o =>
  ⟨rfl, _, _, _, exec_cmp s o, decide_eq_true_iff, decide_eq_true_iff, decide_eq_true_iff,
    exactly_one_compare_flag (sint s.acc) (sint (o.setWidth s.config.W))⟩

end Sys2Proof.Machine

/-! PROOFS. Sine and cosine: SIN and COS (spec/43_trig.md R181 to R184). -/

namespace Sys2Proof.Machine

/-- SIN is available iff `W - 1 - F` reaches its bound (R181). -/
theorem sinAvailable_iff (c : Config) : sinAvailable c = true ↔ 13 ≤ c.W - 1 - c.F := decide_eq_true_iff

/-- SIN is not available iff `W - 1 - F` is below its bound (R181). -/
theorem sinAvailable_eq_false_iff (c : Config) : sinAvailable c = false ↔ c.W - 1 - c.F < 13 :=
  decide_eq_false_iff_not.trans not_le

/-- COS is available iff `W - 1 - F` reaches its bound (R181). -/
theorem cosAvailable_iff (c : Config) : cosAvailable c = true ↔ 10 ≤ c.W - 1 - c.F := decide_eq_true_iff

/-- COS is not available iff `W - 1 - F` is below its bound (R181). -/
theorem cosAvailable_eq_false_iff (c : Config) : cosAvailable c = false ↔ c.W - 1 - c.F < 10 :=
  decide_eq_false_iff_not.trans not_le

/-- An available SIN writes its series to ACC new and leaves the temporaries free (R183, R42). -/
theorem exec_sin_of_available {s : State} (o : DataWord) (h : sinAvailable s.config = true) :
    exec (.sin o) s = .next (s.setAcc (sinSeries s.config s.acc)).discardTemps.complete := if_pos h

/-- An available COS writes its series to ACC new and leaves the temporaries free (R184, R42). -/
theorem exec_cos_of_available {s : State} (o : DataWord) (h : cosAvailable s.config = true) :
    exec (.cos o) s = .next (s.setAcc (cosSeries s.config s.acc)).discardTemps.complete := if_pos h

/-- An unavailable SIN does the fault entry of UNSUPPORTED (R183, R204). -/
theorem exec_sin_of_not_available {s : State} (o : DataWord) (h : sinAvailable s.config = false) :
    exec (.sin o) s = .next (s.raiseFault .unsupported (encode (.sin o))) :=
  exec_of_fault (.sin o) s .unsupported (if_neg (Bool.eq_false_iff.1 h))

/-- An unavailable COS does the fault entry of UNSUPPORTED (R184, R204). -/
theorem exec_cos_of_not_available {s : State} (o : DataWord) (h : cosAvailable s.config = false) :
    exec (.cos o) s = .next (s.raiseFault .unsupported (encode (.cos o))) :=
  exec_of_fault (.cos o) s .unsupported (if_neg (Bool.eq_false_iff.1 h))

/-- Settles O36: by availability, SIN writes `sinSeries`, which is the chain of R183, or makes the fault entry. -/
theorem sinWritesSeriesOrFaults : Obligations.SinWritesSeriesOrFaults := by
  intro s o
  refine ⟨rfl, fun h => ?_, fun h => ?_⟩
  · have hexec := exec_sin_of_available o ((sinAvailable_iff s.config).2 h)
    rw [sinSeries_eq] at hexec
    exact ⟨_, _, _, _, _, _, _, _, _, _, hexec, rfl, rfl, rfl, rfl, rfl, rfl, rfl, sint_sext64 ..⟩
  · exact exec_sin_of_not_available o ((sinAvailable_eq_false_iff s.config).2 h)

/-- Settles O37: by availability, COS writes `cosSeries`, which is the chain of R184, or makes the fault entry. -/
theorem cosWritesSeriesOrFaults : Obligations.CosWritesSeriesOrFaults := by
  intro s o
  refine ⟨rfl, fun h => ?_, fun h => ?_⟩
  · have hexec := exec_cos_of_available o ((cosAvailable_iff s.config).2 h)
    rw [cosSeries_eq] at hexec
    exact ⟨_, _, _, _, _, _, _, _, _, hexec, rfl, rfl, rfl, rfl, rfl, rfl, sint_sext64 ..⟩
  · exact exec_cos_of_not_available o ((cosAvailable_eq_false_iff s.config).2 h)

end Sys2Proof.Machine

/-! PROOFS. Faults: what a command pair can do at its completion edge, and SIN and COS by the configuration
(spec/60_exceptions.md R204, R206). -/

namespace Sys2Proof.Machine

/-- Settles O38: the availability of SIN and of COS is a bound on `W - 1 - F`, and decides between the series and the
fault entry, which leaves ACC. -/
theorem trigFaultsByConfiguration : Obligations.TrigFaultsByConfiguration := by
  refine fun s o => ⟨?_, ?_⟩
  · by_cases h : s.config.W - 1 - s.config.F < 13
    · exact ⟨_, exec_sin_of_not_available o ((sinAvailable_eq_false_iff _).2 h), by simp [if_pos h]⟩
    · exact ⟨_, exec_sin_of_available o ((sinAvailable_iff _).2 (not_lt.1 h)), by simp [if_neg h]⟩
  · by_cases h : s.config.W - 1 - s.config.F < 10
    · exact ⟨_, exec_cos_of_not_available o ((cosAvailable_eq_false_iff _).2 h), by simp [if_pos h]⟩
    · exact ⟨_, exec_cos_of_available o ((cosAvailable_iff _).2 (not_lt.1 h)), by simp [if_neg h]⟩

/-- A fault has a cause (R200). -/
theorem faultOf_ne_none {c : Config} {i : Instr} {k : Cause} (h : faultOf c i = some k) : k ≠ .none := by
  obtain ⟨o, -, rfl, -⟩ | ⟨o, -, rfl, -⟩ | ⟨o, -, rfl, -⟩ | ⟨o, -, rfl, -⟩ := faultOf_cases c i k h <;> nofun

/-- Settles O41: an illegal pair makes the fault entry; a legal one makes it or completes, as `faultOf` says. -/
theorem completesOrFaultsPrecisely : Obligations.CompletesOrFaultsPrecisely := by
  intro c s
  cases hd : decode c with
  | error e => exact ⟨_, execute_of_decode_error s hd, .inr ⟨.illegalCmd, nofun, rfl⟩⟩
  | ok i =>
    have hexec : execute c s = exec i s := by simp only [execute, hd]
    obtain rfl : c = encode i := (decode_eq_ok_iff c i).1 hd
    cases hf : faultOf s.config i with
    | none =>
      obtain ⟨_, _, _, _, _, _, _, hx, -⟩ := exec_of_no_fault i s hf
      exact ⟨_, hexec.trans hx, .inl ⟨rfl, rfl, rfl, rfl, rfl⟩⟩
    | some k => exact ⟨_, hexec.trans (exec_of_fault i s k hf), .inr ⟨k, faultOf_ne_none hf, rfl⟩⟩

end Sys2Proof.Machine

/-! PROOFS. A run of the clocked unit is its commands performed in order (spec/20_memory.md R66;
spec/60_exceptions.md R217). Every edge keeps the state that the command in flight and then the offered commands would
give, `State.outcome`, and brings the unit nearer to an end. -/

namespace Sys2Proof.Machine

/-! No command looks at SEQ or at the host's inputs. -/

/-- A command does the same whatever SEQ and the host's inputs are, and leaves the inputs. -/
theorem exec_of_other_inputs (i : Instr) {s t : State} (q : Seq) (rs : List Bool) (os : List (Option Command))
    (h : exec i s = .next t) :
    exec i { s with seq := q, rst := rs, offers := os } = .next (t.withInputs rs os) := by
  cases hf : faultOf s.config i with
  | some k =>
    cases (exec_of_fault i s k hf).symm.trans h
    exact exec_of_fault i { s with seq := q, rst := rs, offers := os } k hf
  | none =>
    cases i with
    | ldf o =>
      obtain ⟨v, hv⟩ : ∃ v, ldfScaled s.config o = some v := by
        simpa [faultOf, Option.ne_none_iff_exists'] using hf
      cases (exec_ldf_of_some hv).symm.trans h
      exact exec_ldf_of_some (s := { s with seq := q, rst := rs, offers := os }) hv
    | div o =>
      have hb : sint (operandQ s.config o) ≠ 0 := by simpa [faultOf] using hf
      cases (exec_div_of_ne_zero hb).symm.trans h
      exact exec_div_of_ne_zero (s := { s with seq := q, rst := rs, offers := os }) hb
    | sin o =>
      have ha : sinAvailable s.config = true := by simpa [faultOf] using hf
      cases (exec_sin_of_available o ha).symm.trans h
      exact exec_sin_of_available (s := { s with seq := q, rst := rs, offers := os }) o ha
    | cos o =>
      have ha : cosAvailable s.config = true := by simpa [faultOf] using hf
      cases (exec_cos_of_available o ha).symm.trans h
      exact exec_cos_of_available (s := { s with seq := q, rst := rs, offers := os }) o ha
    | _ =>
      cases h
      rfl

/-- A command pair, legal or not, does the same whatever SEQ and the host's inputs are, and leaves the inputs. -/
theorem execute_of_other_inputs {c : Command} {s t : State} (q : Seq) (rs : List Bool) (os : List (Option Command))
    (h : execute c s = .next t) :
    execute c { s with seq := q, rst := rs, offers := os } = .next (t.withInputs rs os) := by
  unfold execute at h ⊢
  cases hd : decode c with
  | error e =>
    simp only [hd] at h ⊢
    cases h
    rfl
  | ok i =>
    simp only [hd] at h ⊢
    exact exec_of_other_inputs i q rs os h

/-- At its completion edge a command leaves the unit IDLE or FAULTED (R206). -/
theorem seq_of_execute {c : Command} {s t : State} (h : execute c s = .next t) : t.seq = .idle ∨ t.seq = .faulted := by
  obtain ⟨u, hu, hcase⟩ := completesOrFaultsPrecisely c s
  obtain rfl : u = t := Host.Outcome.next.inj (hu.symm.trans h)
  obtain ⟨hidle, -⟩ | ⟨k, -, rfl⟩ := hcase
  · exact .inl hidle
  · exact .inr rfl

theorem perform_of_faulted {s : State} (c : Command) (h : s.seq = .faulted) : s.perform c = s := if_pos h

/-- A unit that is not faulted performs a command as its completion edge does. -/
theorem perform_of_execute {c : Command} {s t : State} (hs : s.seq ≠ .faulted) (h : execute c s = .next t) :
    s.perform c = t := by
  rw [State.perform, if_neg hs, h]

/-- Performing a command commutes with a change of the host's inputs. -/
theorem perform_withInputs (s : State) (c : Command) (rs : List Bool) (os : List (Option Command)) :
    (s.withInputs rs os).perform c = (s.perform c).withInputs rs os := by
  by_cases hs : s.seq = .faulted
  · rw [perform_of_faulted c hs, perform_of_faulted (s := s.withInputs rs os) c hs]
  · obtain ⟨t, ht⟩ := execute_next c s
    rw [perform_of_execute hs ht]
    exact perform_of_execute (s := s.withInputs rs os) hs (execute_of_other_inputs s.seq rs os ht)

theorem foldl_perform_withInputs (cs : List Command) (s : State) (rs : List Bool) (os : List (Option Command)) :
    cs.foldl State.perform (s.withInputs rs os) = (cs.foldl State.perform s).withInputs rs os := by
  induction cs generalizing s with
  | nil => rfl
  | cons c cs ih => rw [List.foldl_cons, List.foldl_cons, perform_withInputs, ih]

/-- A faulted unit performs no further command (R208). -/
theorem foldl_perform_of_faulted (cs : List Command) {s : State} (h : s.seq = .faulted) :
    cs.foldl State.perform s = s := by
  induction cs with
  | nil => rfl
  | cons c cs ih => rw [List.foldl_cons, perform_of_faulted c h, ih]

/-- Neither the transfer of a command nor the cycles it takes change what performing it gives (R42). -/
theorem perform_engineEdge (s : State) (c : Command) (hs : s.seq ≠ .faulted) (n pos : Nat) (rs : List Bool)
    (os : List (Option Command)) :
    (State.engineEdge { s with seq := .busy c n, rst := rs, offers := os } c pos n).perform c =
      (s.perform c).withInputs rs os := by
  obtain ⟨t, ht⟩ := execute_next c s
  rw [perform_of_execute hs ht]
  exact perform_of_execute nofun ((execute_engineEdge ..).trans (execute_of_other_inputs _ rs os ht))

/-! The outcome of the commands that stand in a state. -/

/-- The state that the command in flight, if any, and then the offered commands give one after another. -/
def State.outcome (s : State) : State :=
  (s.offers.filterMap id).foldl State.perform
    (match s.seq with
      | .busy c _ => s.perform c
      | .idle => s
      | .faulted => s)

theorem outcome_of_busy {s : State} {c : Command} {n : Nat} (h : s.seq = .busy c n) :
    s.outcome = (s.offers.filterMap id).foldl State.perform (s.perform c) := by
  simp only [State.outcome, h]

theorem outcome_of_idle {s : State} (h : s.seq = .idle) :
    s.outcome = (s.offers.filterMap id).foldl State.perform s := by
  simp only [State.outcome, h]

theorem outcome_of_faulted {s : State} (h : s.seq = .faulted) : s.outcome = s := by
  simp only [State.outcome, h]
  exact foldl_perform_of_faulted _ h

/-- After a completion edge only the offered commands are left to perform. -/
theorem outcome_of_execute {c : Command} {s t : State} (h : execute c s = .next t) :
    t.outcome = (t.offers.filterMap id).foldl State.perform t := by
  obtain hidle | hfault := seq_of_execute h
  · exact outcome_of_idle hidle
  · rw [outcome_of_faulted hfault, foldl_perform_of_faulted _ hfault]

/-- An edge that accepts nothing uses up no offered command. -/
theorem filterMap_hostEdge_offers (s : State) : s.hostEdge.offers.filterMap id = s.offers.filterMap id := by
  rw [hostEdge_offers]
  cases s.offers with
  | nil => rfl
  | cons o os => cases o <;> rfl

theorem length_hostEdge_offers_le (s : State) : s.hostEdge.offers.length ≤ s.offers.length := by
  rw [hostEdge_offers]
  split <;> simp

/-! One edge. -/

/-- The end of a run in which the host leaves `rst` at 0: no offer left, or a faulted unit (R217, R208). -/
def State.finished (s : State) : Prop := (s.seq = .idle ∧ s.offers = []) ∨ s.seq = .faulted

/-- How many edges a command in flight still needs; 0 outside BUSY. -/
def Seq.edgesLeft : Seq → Nat
  | .busy _ n => n + 1
  | .idle => 0
  | .faulted => 0

/-- `t` is nearer to the end of the run than `s`: fewer offers to take, or no more of them and fewer edges to wait. -/
def State.nearerEnd (t s : State) : Prop :=
  t.offers.length < s.offers.length ∨
    t.offers.length ≤ s.offers.length ∧ t.seq.edgesLeft < s.seq.edgesLeft

/-- What an edge of a run does: it uses up one level of `rst`, comes nearer to the end, and keeps the outcome up to the
host's inputs. -/
def State.progressesTo (s t : State) : Prop :=
  t.rst = s.rst.tail ∧ t.nearerEnd s ∧ ∃ rs os, t.outcome = s.outcome.withInputs rs os

theorem progressesTo_accept {s : State} {c : Command} {os : List (Option Command)} (h : s.seq = .idle)
    (ho : s.offers = some c :: os) : s.progressesTo (s.hostEdge.accept c) := by
  have hos : (s.hostEdge.accept c).offers = os := by simp [hostEdge_offers, ho]
  refine ⟨rfl, .inl (by rw [hos, ho]; exact Nat.lt_succ_self _), s.rst.tail, s.hostEdge.offers.tail, ?_⟩
  have hc : (s.hostEdge.accept c).perform c = (s.perform c).withInputs s.rst.tail s.hostEdge.offers.tail :=
    perform_engineEdge s c (by simp [h]) ..
  rw [outcome_of_busy (State.accept_seq ..), hos, hc, foldl_perform_withInputs, outcome_of_idle h, ho]
  rfl

theorem progressesTo_hostEdge {s : State} {os : List (Option Command)} (h : s.seq = .idle)
    (ho : s.offers = none :: os) : s.progressesTo s.hostEdge := by
  refine ⟨rfl, .inl (by simp [hostEdge_offers, ho]), s.rst.tail, s.hostEdge.offers, ?_⟩
  rw [outcome_of_idle h, outcome_of_idle (s := s.hostEdge) h, filterMap_hostEdge_offers, ← foldl_perform_withInputs]
  rfl

theorem progressesTo_countCycle {s : State} {c : Command} {n : Nat} (h : s.seq = .busy c (n + 1)) :
    s.progressesTo (s.hostEdge.countCycle c n) := by
  refine ⟨rfl, .inr ⟨length_hostEdge_offers_le s, by simp [h, Seq.edgesLeft]⟩, s.rst.tail, s.hostEdge.offers, ?_⟩
  have hc : (s.hostEdge.countCycle c n).perform c = (s.perform c).withInputs s.rst.tail s.hostEdge.offers :=
    perform_engineEdge s c (by simp [h]) ..
  rw [outcome_of_busy (State.countCycle_seq ..), State.countCycle_offers, filterMap_hostEdge_offers, hc,
    foldl_perform_withInputs, outcome_of_busy h]

theorem progressesTo_complete {s u : State} {c : Command} (h : s.seq = .busy c 0) (hu : execute c s = .next u) :
    s.progressesTo (u.withInputs s.rst.tail s.hostEdge.offers) := by
  have ht := execute_of_other_inputs s.seq s.rst.tail s.hostEdge.offers hu
  have hleft : (u.withInputs s.rst.tail s.hostEdge.offers).seq.edgesLeft < s.seq.edgesLeft := by
    obtain hseq | hseq := seq_of_execute hu <;> simp [h, hseq, Seq.edgesLeft]
  refine ⟨rfl, .inr ⟨length_hostEdge_offers_le s, hleft⟩, s.rst.tail, s.hostEdge.offers, ?_⟩
  rw [outcome_of_execute ht, State.withInputs_offers, filterMap_hostEdge_offers, foldl_perform_withInputs,
    outcome_of_busy h, perform_of_execute (by simp [h]) hu]

/-- Until the end of the run, every edge with `rst = 0` progresses: an IDLE unit accepts an offer or lets an edge
without one pass, a BUSY unit counts a cycle or completes. -/
theorem exists_step_progressesTo {s : State} (hrst : s.rstPin = false) (hend : ¬s.finished) :
    ∃ t, step s = .next t ∧ s.progressesTo t := by
  rw [step_of_no_rst s hrst]
  cases hseq : s.seq with
  | faulted => exact absurd (.inr hseq) hend
  | idle =>
    cases ho : s.offers with
    | nil => exact absurd (.inl ⟨hseq, ho⟩) hend
    | cons o os =>
      cases o with
      | none => exact ⟨_, unitEdge_idle_none s hseq (by rw [State.offerPin, ho]), progressesTo_hostEdge hseq ho⟩
      | some c => exact ⟨_, unitEdge_idle_offer s c hseq (by rw [State.offerPin, ho]), progressesTo_accept hseq ho⟩
  | busy c n =>
    cases n with
    | zero =>
      obtain ⟨u, hu⟩ := execute_next c s
      have hedge := (unitEdge_busy_zero s c hseq).trans (execute_of_other_inputs s.seq _ _ hu)
      exact ⟨_, hedge, progressesTo_complete hseq hu⟩
    | succ n => exact ⟨_, unitEdge_busy_succ s c n hseq, progressesTo_countCycle hseq⟩

/-! The run. -/

/-- Where all levels of `rst` to come are 0, so is the next one. -/
theorem rstPin_of_low {s : State} (hlow : ∀ l ∈ s.rst, l = false) : s.rstPin = false := by
  unfold State.rstPin
  cases hr : s.rst with
  | nil => rfl
  | cons l rs => exact hlow l (by simp [hr])

/-- Where `rst` stays 0 a run ends, in the outcome of the commands that stood in its first state. -/
theorem exists_run_finished (s : State) (hlow : ∀ l ∈ s.rst, l = false) :
    ∃ k t rs os, Host.Core.run core k s = .next t ∧ t.finished ∧ t.outcome = s.outcome.withInputs rs os := by
  by_cases hend : s.finished
  · exact ⟨0, s, s.outcome.rst, s.outcome.offers, rfl, hend, rfl⟩
  · obtain ⟨u, hstep, htail, hnear, rs, os, hkeep⟩ := exists_step_progressesTo (rstPin_of_low hlow) hend
    obtain ⟨k, t, rs', os', hrun, hfin, hout⟩ :=
      exists_run_finished u fun l hl => hlow l (List.mem_of_mem_tail (htail ▸ hl))
    exact ⟨k + 1, t, rs', os', (run_succ_of_next k s u hstep).trans hrun, hfin, by rw [hout, hkeep]; rfl⟩
termination_by (s.offers.length, s.seq.edgesLeft)
decreasing_by
  simp only [State.nearerEnd] at hnear
  simp only [Prod.lex_def]
  omega

theorem outcome_of_finished {s : State} (h : s.finished) : s.outcome = s := by
  obtain ⟨hidle, hnil⟩ | hfault := h
  · rw [outcome_of_idle hidle, hnil]
    rfl
  · exact outcome_of_faulted hfault

theorem isEnd_of_finished {s : State} (h : s.finished) : s.isEnd = true := by
  obtain ⟨hidle, hnil⟩ | hfault := h
  · simp [State.isEnd, hidle, hnil]
  · simp [State.isEnd, hfault]

/-- Settles O57: the run ends in its outcome, and an IDLE unit's outcome is that of its offered commands alone. -/
theorem runsAreSequential : Obligations.RunsAreSequential := by
  intro s hidle hlow
  obtain ⟨k, t, rs, os, hrun, hfin, hout⟩ := exists_run_finished s hlow
  rw [outcome_of_finished hfin, outcome_of_idle hidle] at hout
  exact ⟨k, t, hrun, isEnd_of_finished hfin, by rw [hout]; rfl, hfin⟩

end Sys2Proof.Machine

/-! PROOFS. Encoding: the round trip in both directions, words written out bit by bit, and the bits of OPND that operand
form Q ignores (spec/30_encoding.md R82, R83, R89). -/

namespace Sys2Proof

/-- Settles O1: `decode` inverted gives the fields of the encoding, and `encode` is undone by `decode`. -/
theorem decodeIffEncode : Obligations.DecodeIffEncode := decode_eq_ok_iff

/-- Settles O3: each written word is the encoding of its command. -/
theorem writtenWordsDecode : Obligations.WrittenWordsDecode := fun o =>
  ⟨decode_encode (.nop o), decode_encode (.ldf o), decode_encode (.div o), decode_encode (.incp o),
    decode_encode (.cmp o), decode_encode (.cos o)⟩

namespace Machine

/-- Of two operand words with the same low W bits, DIV faults with both or with none, and only the operand word that a
fault records tells them apart (R83, R202). -/
theorem exec_div_of_operandQ_eq (s : State) {o o' : DataWord} (h : operandQ s.config o = operandQ s.config o') :
    ∃ t t', exec (.div o) s = .next t ∧ exec (.div o') s = .next t' ∧ t' = { t with fopnd := t'.fopnd } ∧
      (t.seq ≠ .faulted → t' = t) := by
  by_cases hz : sint (operandQ s.config o) = 0
  · have hz' : sint (operandQ s.config o') = 0 := h ▸ hz
    exact ⟨_, _, exec_div_of_eq_zero hz, exec_div_of_eq_zero hz', raiseFault_eq_with_fopnd s .divZero rfl,
      fun hne => absurd rfl hne⟩
  · have hz' : sint (operandQ s.config o') ≠ 0 := h ▸ hz
    exact ⟨_, _, exec_div_of_ne_zero hz, exec_div_of_ne_zero hz', by rw [h], fun _ => by rw [h]⟩

/-- Settles O4: the commands of operand form Q read OPND through `operandQ` alone, its low W bits. -/
theorem upperOperandBitsIgnored : Obligations.UpperOperandBitsIgnored := by
  intro s o o' h
  have hq : operandQ s.config o = operandQ s.config o' := h
  refine ⟨?_, ?_, ?_, ?_, ?_, exec_div_of_operandQ_eq s hq⟩
  · simp only [exec, execLdq, hq]
  · simp only [exec, execAdd, hq]
  · simp only [exec, execSub, hq]
  · simp only [exec, execMul, hq]
  · simp only [exec_cmp, hq]

end Machine

end Sys2Proof

/-! PROOFS. What one rising edge can do, said once (spec/10_state.md R42; spec/30_encoding.md R89;
spec/70_reset_and_hazards.md R230), and what follows for every step. -/

namespace Sys2Proof.Machine

/-- A legal pair at its completion edge does what its instruction does (R89). -/
theorem execute_of_decode_ok {c : Command} {i : Instr} (s : State) (h : decode c = .ok i) :
    execute c s = exec i s := by
  simp only [execute, h]

/-- The fault entry of a legal command records that command, with a cause it raises (R206). -/
theorem faultRecord_of_faultOf {s : State} {i : Instr} {k : Cause} (h : faultOf s.config i = some k) :
    (s.raiseFault k (encode i)).faultRecord := by
  obtain ⟨o, rfl, rfl, hz⟩ | ⟨o, rfl, rfl, hn⟩ | ⟨o, rfl, rfl, ha⟩ | ⟨o, rfl, rfl, ha⟩ :=
    faultOf_cases s.config i k h
  · exact ⟨rfl, hz⟩
  · exact ⟨rfl, hn⟩
  · exact .inl ⟨rfl, ha⟩
  · exact .inr ⟨rfl, ha⟩

/-- A command pair, legal or not, completes, keeping the flags exclusive, or makes the fault entry that records it
(R206): the inversion of `execute`. -/
theorem execute_cases {c : Command} {s t : State} (h : execute c s = .next t) :
    (∃ a r e l g tm n, t = s.completedWith a r e l g tm n ∧
      (s.status.flagsExclusive → t.status.flagsExclusive)) ∨
    ∃ k, t = s.raiseFault k c ∧ k ≠ .none ∧ t.faultRecord := by
  cases hd : decode c with
  | error e =>
    cases (execute_of_decode_error s hd).symm.trans h
    exact .inr ⟨.illegalCmd, rfl, nofun, e, hd⟩
  | ok i =>
    obtain rfl : c = encode i := (decode_eq_ok_iff c i).1 hd
    rw [execute_of_decode_ok s hd] at h
    cases hf : faultOf s.config i with
    | none =>
      obtain ⟨a, r, e, l, g, tm, n, hx, -, hflags⟩ := exec_of_no_fault i s hf
      cases hx.symm.trans h
      refine .inl ⟨a, r, e, l, g, tm, n, rfl, fun hs => ?_⟩
      obtain hex | ⟨rfl, rfl, rfl⟩ := hflags
      · exact hex
      · exact hs
    | some k =>
      cases (exec_of_fault i s k hf).symm.trans h
      exact .inr ⟨k, rfl, faultOf_ne_none hf, faultRecord_of_faultOf hf⟩

/-- No command changes the configuration or the host's inputs. -/
theorem execute_keeps {c : Command} {s t : State} (h : execute c s = .next t) :
    t.config = s.config ∧ t.offers = s.offers := by
  obtain ⟨a, r, e, l, g, tm, n, rfl, -⟩ | ⟨k, rfl, -⟩ := execute_cases h <;> exact ⟨rfl, rfl⟩

/-- The ways from `s` to `t` at one rising edge (R42, R230). -/
inductive EdgeCase (s t : State) : Prop
  /-- `rst = 1`. -/
  | reset (hrst : s.rstPin = true) (ht : t = s.hostEdge.resetEdge)
  /-- An IDLE unit takes the offered command. -/
  | accept (c : Command) (hseq : s.seq = .idle) (ho : s.offerPin = some c) (ht : t = s.hostEdge.accept c)
  /-- An IDLE unit without an offer, or a faulted one, lets the edge pass. -/
  | pass (hseq : s.seq = .idle ∨ s.seq = .faulted) (ht : t = s.hostEdge)
  /-- A cycle of BUSY before the completion edge. -/
  | count (c : Command) (n : Nat) (hseq : s.seq = .busy c (n + 1)) (ht : t = s.hostEdge.countCycle c n)
  /-- The completion edge. -/
  | complete (c : Command) (hseq : s.seq = .busy c 0) (ht : execute c s.hostEdge = .next t)

/-- From every state an edge answers a next state, in one of the five ways. -/
theorem exists_step_edgeCase (s : State) : ∃ t, step s = .next t ∧ EdgeCase s t := by
  cases hrst : s.rstPin with
  | true => exact ⟨_, step_of_rst s hrst, .reset hrst rfl⟩
  | false =>
    rw [step_of_no_rst s hrst]
    cases hseq : s.seq with
    | idle =>
      cases ho : s.offerPin with
      | none => exact ⟨_, unitEdge_idle_none s hseq ho, .pass (.inl hseq) rfl⟩
      | some c => exact ⟨_, unitEdge_idle_offer s c hseq ho, .accept c hseq ho rfl⟩
    | faulted => exact ⟨_, unitEdge_faulted s hseq, .pass (.inr hseq) rfl⟩
    | busy c n =>
      cases n with
      | zero =>
        obtain ⟨t, ht⟩ := execute_next c s.hostEdge
        exact ⟨t, (unitEdge_busy_zero s c hseq).trans ht, .complete c hseq ht⟩
      | succ n => exact ⟨_, unitEdge_busy_succ s c n hseq, .count c n hseq rfl⟩

/-- The inversion of `step`. -/
theorem edgeCase_of_step {s t : State} (h : step s = .next t) : EdgeCase s t := by
  obtain ⟨u, hu, hcase⟩ := exists_step_edgeCase s
  obtain rfl : u = t := Host.Outcome.next.inj (hu.symm.trans h)
  exact hcase

/-- Settles O52: each of the five edges answers a next state. -/
theorem everyStepAnswersNext : Obligations.EveryStepAnswersNext := fun s =>
  (exists_step_edgeCase s).imp fun _ h => h.1

/-- With `rst = 0` the step at the completion edge of a legal command is its `exec` (R42, R89). -/
theorem step_of_completion {s : State} {c : Command} {i : Instr} (hrst : s.rstPin = false) (hseq : s.seq = .busy c 0)
    (hd : decode c = .ok i) : step s = exec i s.hostEdge := by
  rw [step_of_no_rst s hrst, unitEdge_busy_zero s c hseq, execute_of_decode_ok _ hd]

theorem config_of_step {s t : State} (h : step s = .next t) : t.config = s.config := by
  cases edgeCase_of_step h with
  | reset _ ht => rw [ht]; rfl
  | accept _ _ _ ht => rw [ht]; rfl
  | pass _ ht => rw [ht]; rfl
  | count _ _ _ ht => rw [ht]; rfl
  | complete _ _ ht => exact (execute_keeps ht).1

/-- Settles O44: none of the five edges writes the configuration, and CONFIG is a function of it. -/
theorem configNeverChanges : Obligations.ConfigNeverChanges := fun _ _ h =>
  ⟨config_of_step h, congrArg configWord (config_of_step h)⟩

end Sys2Proof.Machine

/-! PROOFS. The invariant of the unit's registers (spec/10_state.md R36, R41; spec/60_exceptions.md R200, R206). -/

namespace Sys2Proof.Machine

/-- The reset values of STATUS, FCMD, FOPND and SEQ meet the invariant (R45). -/
theorem inv_of_reset_values {s : State} (hst : s.status = Status.zero) (hc : s.fcmd = 0) (ho : s.fopnd = 0)
    (hseq : s.seq = .idle) : s.Inv := by
  simp [State.Inv, State.faultRecord, Status.flagsExclusive, Status.zero, hst, hc, ho, hseq]

/-- Of SEQ the invariant asks only whether it is FAULTED, and of the temporaries and the host's inputs nothing. -/
theorem inv_of_other_seq {s : State} (h : s.Inv) (q : Seq) (tm : TrigTemps s.config.W) (rs : List Bool)
    (os : List (Option Command)) (hq : q = .faulted ↔ s.seq = .faulted) :
    State.Inv { s with seq := q, temps := tm, rst := rs, offers := os } := by
  obtain ⟨hfault, hrest⟩ := h
  exact ⟨hfault.trans hq.symm, hrest⟩

/-- A completion edge keeps the invariant: a command in flight means no fault yet, so one that completes leaves the
record clear, and a fault entry makes the one record since reset (R206). -/
theorem inv_of_execute {c : Command} {s t : State} (hs : s.Inv) (hseq : s.seq ≠ .faulted)
    (h : execute c s = .next t) : t.Inv := by
  obtain ⟨hfault, hcause, hflags, hrec⟩ := hs
  have hno : s.status.fault = false := by simpa [hseq] using hfault
  obtain ⟨a, r, e, l, g, tm, n, rfl, hkeep⟩ | ⟨k, rfl, hk, hrec'⟩ := execute_cases h
  · exact ⟨by simp [State.completedWith, hno], hcause, hkeep hflags, hrec⟩
  · exact ⟨by simp, by simp [hk], hflags, hrec'⟩

/-- Settles O55: of the five edges, reset gives the reset values, completion is `inv_of_execute`, and the others leave
the registers the invariant is about. -/
theorem stepKeepsInvariant : Obligations.StepKeepsInvariant := by
  intro s t hs h
  cases edgeCase_of_step h with
  | reset _ ht =>
    subst ht
    exact inv_of_reset_values rfl rfl rfl rfl
  | accept c hseq _ ht =>
    subst ht
    exact inv_of_other_seq hs _ _ _ _ (by simp [hseq])
  | pass _ ht =>
    subst ht
    exact inv_of_other_seq hs _ _ _ _ Iff.rfl
  | count c n hseq ht =>
    subst ht
    exact inv_of_other_seq hs _ _ _ _ (by simp [hseq])
  | complete c hseq ht =>
    have hs' : s.hostEdge.Inv := inv_of_other_seq hs _ _ _ _ Iff.rfl
    exact inv_of_execute hs' (by simp [hseq]) ht

/-- Settles O56: STATUS, FCMD, FOPND and SEQ have their reset values. -/
theorem resetMeetsInvariant : Obligations.ResetMeetsInvariant := fun _ => inv_of_reset_values rfl rfl rfl rfl

end Sys2Proof.Machine

/-! PROOFS. What the sine and cosine engine holds within BUSY (spec/10_state.md R42; spec/43_trig.md R182 to R184). -/

namespace Sys2Proof.Machine

/-- Outside BUSY the engine's invariant asks nothing. -/
theorem engineHolds_of_not_busy {s : State} (h : s.seq = .idle ∨ s.seq = .faulted) : s.engineHolds := by
  intro c left hseq
  obtain hidle | hfault := h
  · cases hidle.symm.trans hseq
  · cases hfault.symm.trans hseq

/-- The heart of the invariant: where the first `pos` steps of the command in flight are done, an edge of the engine does
some of the steps that come next, and at the edge into the last cycle all that remain (log 17). -/
theorem engineHolds_engineEdge {s : State} {c : Command} {pos left : Nat} (hseq : s.seq = .busy c left)
    (h : ∃ t, { s.temps with pos := pos } = runSteps ((commandSteps s.config s.acc c).take pos) t) :
    (s.engineEdge c pos left).engineHolds := by
  intro c' left' hseq'
  obtain ⟨rfl, rfl⟩ := Seq.busy.inj (hseq.symm.trans hseq')
  by_cases hnil : commandSteps s.config s.acc c = []
  · exact .inl hnil
  · obtain ⟨t, ht⟩ := h
    obtain ⟨k, hk, hlast⟩ :=
      TrigTemps.edge_of_steps s.temps (commandSteps s.config s.acc c) s.freeCount pos left hnil
    have hdone := TrigTemps.advance_of_take _ _ t k ht (commandSteps_pos s.config s.acc c)
    right
    simp only [State.engineEdge_temps, State.engineEdge_config, State.engineEdge_acc, hk]
    refine ⟨⟨_, hdone⟩, Nat.min_le_right .., fun h0 => ?_⟩
    rw [hlast h0]
    exact Nat.min_eq_right (Nat.le_add_left ..)

/-- An accepted command starts with none of its steps done. -/
theorem engineHolds_accept (s : State) (c : Command) : (s.accept c).engineHolds :=
  engineHolds_engineEdge rfl ⟨{ s.temps with pos := 0 }, rfl⟩

/-- A cycle of BUSY goes on from the steps done before it. -/
theorem engineHolds_countCycle {s : State} {c : Command} {n : Nat} (hs : s.engineHolds)
    (hseq : s.seq = .busy c (n + 1)) : (s.countCycle c n).engineHolds := by
  obtain hnil | ⟨hdone, -⟩ := hs c (n + 1) hseq
  · intro c' left hseq'
    obtain ⟨rfl, -⟩ := Seq.busy.inj hseq'
    exact .inl hnil
  · exact engineHolds_engineEdge rfl hdone

/-- Settles O47: an accepting edge starts the sequence, a cycle of BUSY goes on with it, and after every other edge
nothing is in flight. -/
theorem stepKeepsEngine : Obligations.StepKeepsEngine := by
  intro s t hs h
  cases edgeCase_of_step h with
  | reset _ ht =>
    subst ht
    exact engineHolds_of_not_busy (.inl rfl)
  | accept c _ _ ht =>
    subst ht
    exact engineHolds_accept s.hostEdge c
  | pass hseq ht =>
    subst ht
    exact engineHolds_of_not_busy hseq
  | count c n hseq ht =>
    subst ht
    exact engineHolds_countCycle (s := s.hostEdge) hs hseq
  | complete c _ ht => exact engineHolds_of_not_busy (seq_of_execute ht)

/-- Settles O48: the reset state is IDLE. -/
theorem resetMeetsEngine : Obligations.ResetMeetsEngine := fun _ => engineHolds_of_not_busy (.inl rfl)

/-- The steps of an available SIN in flight (R183). -/
theorem commandSteps_sin {c : Config} (x : BitVec c.W) (o : DataWord) (h : sinAvailable c = true) :
    commandSteps c x (encode (.sin o)) = sinSteps c x := by
  rw [commandSteps, decode_encode]
  exact if_pos h

/-- The steps of an available COS in flight (R184). -/
theorem commandSteps_cos {c : Config} (x : BitVec c.W) (o : DataWord) (h : cosAvailable c = true) :
    commandSteps c x (encode (.cos o)) = cosSteps c x := by
  rw [commandSteps, decode_encode]
  exact if_pos h

/-- In the last cycle all steps of the command in flight are done. -/
theorem temps_of_last_cycle {s : State} {c : Command} {steps : List (TrigTemps s.config.W → TrigTemps s.config.W)}
    (hs : s.engineHolds) (hseq : s.seq = .busy c 0) (hsteps : commandSteps s.config s.acc c = steps)
    (hne : steps ≠ []) : ∃ t, s.temps = runSteps steps t := by
  subst hsteps
  obtain hnil | ⟨⟨t, ht⟩, -, hlast⟩ := hs c 0 hseq
  · exact absurd hnil hne
  · rw [hlast rfl, List.take_length] at ht
    exact ⟨t, ht⟩

/-- Settles O49: in the last cycle the temporaries are what all the steps make of some temporaries, whatever those
were; completion writes the value those steps leave in `s`. -/
theorem lastCycleHoldsPowerChain : Obligations.LastCycleHoldsPowerChain := by
  refine fun s o hs hrst => ⟨fun hseq ha => ?_, fun hseq ha => ?_⟩
  · obtain ⟨t, ht⟩ := temps_of_last_cycle hs hseq (commandSteps_sin s.acc o ha) nofun
    have hstep := (step_of_completion hrst hseq (decode_encode _)).trans (exec_sin_of_available o ha)
    rw [ht]
    exact ⟨⟨rfl, rfl, rfl, rfl, rfl, rfl, rfl, rfl⟩, _, hstep, rfl, sint_sext64 ..⟩
  · obtain ⟨t, ht⟩ := temps_of_last_cycle hs hseq (commandSteps_cos s.acc o ha) nofun
    have hstep := (step_of_completion hrst hseq (decode_encode _)).trans (exec_cos_of_available o ha)
    rw [ht]
    exact ⟨⟨rfl, rfl, rfl, rfl, rfl, rfl, rfl⟩, _, hstep, rfl, sint_sext64 ..⟩

end Sys2Proof.Machine

/-! PROOFS. Edges with `rst = 0`: acceptance, the cycles of BUSY, completion, and a faulted unit (spec/10_state.md R30,
R42, R43; spec/60_exceptions.md R208; spec/70_reset_and_hazards.md R236, R237). -/

namespace Sys2Proof.Machine

/-! The completion edge. -/

/-- Settles O45: the completion edge is `execute` after the host's side of the edge. -/
theorem stepRunsDecodedCommand : Obligations.StepRunsDecodedCommand := by
  intro s c hrst hseq
  refine ⟨?_, fun i hd => step_of_completion hrst hseq hd, fun e hd => ?_⟩
  · rw [← hostEdge_offers]
    rfl
  · rw [step_of_no_rst s hrst, unitEdge_busy_zero s c hseq]
    exact execute_of_decode_error _ hd

/-- A row of the opcode table reads as what its command pair decodes to. -/
theorem decodeTableWord_eq_some_iff (nbits w : Nat) (i : Instr) :
    decodeTableWord nbits w = some i ↔ decode (tableCommand nbits w) = .ok i := by
  unfold decodeTableWord
  cases decode (tableCommand nbits w) <;> simp

/-- Settles O58: `withFetchWord` puts the pair of the row at its completion edge, with `rst = 0`. -/
theorem fetchWordRunsNext : Obligations.FetchWordRunsNext := fun _ nbits w i h =>
  step_of_completion rfl rfl ((decodeTableWord_eq_some_iff nbits w i).1 h)

/-! Acceptance. -/

theorem cmdReady_iff (s : State) : s.cmdReady = true ↔ s.seq = .idle ∧ s.rstPin = false := by
  simp [State.cmdReady]

/-- A command word other than those of SIN and COS has no steps of the engine (R182). -/
theorem commandSteps_of_not_trig {c : Config} (x : BitVec c.W) {cmd : Command} (hsin : cmd.cmd ≠ 0x40)
    (hcos : cmd.cmd ≠ 0x41) : commandSteps c x cmd = [] := by
  unfold commandSteps
  cases hd : decode cmd with
  | error e => rfl
  | ok i =>
    obtain rfl : cmd = encode i := (decode_eq_ok_iff cmd i).1 hd
    cases i with
    | sin o => exact absurd rfl hsin
    | cos o => exact absurd rfl hcos
    | _ => rfl

/-- An edge that does not accept leaves an offer where it is (R214). -/
theorem hostEdge_offers_of_some {s : State} {c : Command} {rest : List (Option Command)}
    (h : s.offers = some c :: rest) : s.hostEdge.offers = s.offers := by
  simp [hostEdge_offers, h]

/-- Only an edge with `cmd_ready = 1` takes an offer (R42, R230). -/
theorem offers_of_step_not_ready {s t : State} {c : Command} {rest : List (Option Command)}
    (ho : s.offers = some c :: rest) (hready : s.cmdReady = false) (h : step s = .next t) :
    t.offers = s.offers := by
  rw [← hostEdge_offers_of_some ho]
  cases hrst : s.rstPin with
  | true =>
    cases (step_of_rst s hrst).symm.trans h
    rfl
  | false =>
    cases edgeCase_of_step h with
    | reset _ ht => rw [ht, State.resetEdge_offers]
    | accept c' hseq _ _ => simp [(cmdReady_iff s).2 ⟨hseq, hrst⟩] at hready
    | pass _ ht => rw [ht]
    | count _ _ _ ht => rw [ht, State.countCycle_offers]
    | complete _ _ ht => exact (execute_keeps ht).2

/-- Settles O46: the accepting edge is `State.accept`; every other edge is one of those that leave an offer. -/
theorem acceptsOfferWhenReady : Obligations.AcceptsOfferWhenReady := by
  intro s c rest ho
  refine ⟨cmdReady_iff s, fun hready => ?_, fun hready t => offers_of_step_not_ready ho hready⟩
  obtain ⟨hseq, hrst⟩ := (cmdReady_iff s).1 hready
  have hpin : s.offerPin = some c := by rw [State.offerPin, ho]
  have hrest : (s.hostEdge.accept c).offers = rest := by
    rw [State.accept_offers, hostEdge_offers_of_some ho, ho, List.tail_cons]
  refine ⟨(s.hostEdge.accept c).temps, ?_, fun hsin hcos => ?_⟩
  · rw [step_of_no_rst s hrst, unitEdge_idle_offer s c hseq hpin, ← hrest]
    rfl
  · rw [State.accept_temps, commandSteps_of_not_trig _ hsin hcos]
    rfl

/-! The cycles of BUSY. -/

theorem busy_of_busy {s : State} {c : Command} {n : Nat} (h : s.seq = .busy c n) : s.busy = true := by
  simp only [State.busy, h]

/-- The port `status` shows the stored fields and whether the unit is BUSY (R36). -/
theorem statusPort_eq_of_busy {s t : State} {c d : Command} {m n : Nat} (hs : s.seq = .busy c m)
    (ht : t.seq = .busy d n) (hst : t.status = s.status) : t.statusPort = s.statusPort := by
  rw [State.statusPort, State.statusPort, hst, busy_of_busy hs, busy_of_busy ht]

/-- With `rst = 0` an edge of BUSY before the completion edge counts a cycle (R42). -/
theorem step_of_busy_succ {s : State} {c : Command} {n : Nat} (hrst : s.rstPin = false)
    (hseq : s.seq = .busy c (n + 1)) : step s = .next (s.hostEdge.countCycle c n) :=
  (step_of_no_rst s hrst).trans (unitEdge_busy_succ s c n hseq)

/-- Settles O50: a cycle of BUSY writes the temporaries and the count only. -/
theorem busyShowsPreviousCompletion : Obligations.BusyShowsPreviousCompletion := fun _ _ _ hrst hseq =>
  ⟨_, step_of_busy_succ hrst hseq, rfl, rfl, statusPort_eq_of_busy hseq (State.countCycle_seq ..) rfl, rfl, rfl, rfl,
    rfl, rfl⟩

/-- The level of `rst` at an edge is the entry of the host's list at its number (log 4). -/
theorem rstPin_of_getD {s : State} (h : s.rst.getD 0 false = false) : s.rstPin = false := by
  rw [State.rstPin, ← h]
  cases s.rst <;> rfl

theorem hostEdge_rst_getD (s : State) (j : Nat) : s.hostEdge.rst.getD j false = s.rst.getD (j + 1) false := by
  rw [State.hostEdge_rst]
  cases s.rst <;> rfl

/-- Settles O51, by induction on the edges left: a cycle of BUSY leaves one less and the same ports, and the completion
edge leaves BUSY. -/
theorem acceptedCommandCompletes : Obligations.AcceptedCommandCompletes := by
  intro n
  induction n with
  | zero =>
    intro s c hseq hlow
    obtain ⟨t, ht⟩ := execute_next c s.hostEdge
    have hstep : step s = .next t := by
      rw [step_of_no_rst s (rstPin_of_getD (hlow 0 le_rfl)), unitEdge_busy_zero s c hseq, ht]
    refine ⟨fun k hk => ?_, t, run_succ_of_next 0 s t hstep, ?_⟩
    · obtain rfl := Nat.le_zero.1 hk
      exact ⟨s, rfl, hseq, rfl, rfl⟩
    · obtain hidle | hfault := seq_of_execute ht
      · exact busy_of_idle t hidle
      · simp only [State.busy, hfault]
  | succ n ih =>
    intro s c hseq hlow
    have hstep := step_of_busy_succ (rstPin_of_getD (hlow 0 (Nat.zero_le _))) hseq
    obtain ⟨hbefore, t, hrun, hdone⟩ := ih (s.hostEdge.countCycle c n) c rfl fun j hj => by
      rw [State.countCycle_rst, hostEdge_rst_getD]
      exact hlow (j + 1) (Nat.succ_le_succ hj)
    refine ⟨fun k hk => ?_, t, (run_succ_of_next _ s _ hstep).trans hrun, hdone⟩
    cases k with
    | zero => exact ⟨s, rfl, hseq, rfl, rfl⟩
    | succ k =>
      obtain ⟨u, hu, hubusy, hures, hust⟩ := hbefore k (Nat.le_of_succ_le_succ hk)
      have hport : (s.hostEdge.countCycle c n).statusPort = s.statusPort :=
        statusPort_eq_of_busy hseq (State.countCycle_seq ..) rfl
      exact ⟨u, (run_succ_of_next k s _ hstep).trans hu, by rw [hubusy, Nat.succ_sub_succ], hures,
        hust.trans hport⟩

/-! A faulted unit. -/

/-- Settles O43, by induction on the number of edges: with `rst = 0` a faulted unit lets each one pass, and the host's
side of an edge uses up no offered command. -/
theorem faultedUntilReset : Obligations.FaultedUntilReset := by
  intro k
  induction k with
  | zero => exact fun s _ _ => ⟨s, rfl, rfl, rfl⟩
  | succ k ih =>
    intro s hseq hlow
    have hstep : step s = .next s.hostEdge := by
      rw [step_of_no_rst s (rstPin_of_getD (hlow 0 k.succ_pos)), unitEdge_faulted s hseq]
    obtain ⟨t, hrun, heq, hoffers⟩ := ih s.hostEdge hseq fun j hj => by
      rw [hostEdge_rst_getD]
      exact hlow (j + 1) (Nat.succ_lt_succ hj)
    exact ⟨t, (run_succ_of_next k s _ hstep).trans hrun, heq, hoffers.trans (filterMap_hostEdge_offers s)⟩

end Sys2Proof.Machine

/-! PROOFS. The ports CONFIG and STATUS, the reset state, and the widths of the datapath (spec/00_scope.md R7;
spec/10_state.md R36, R37, R45). -/

namespace Sys2Proof.Machine

/-! CONFIG. -/

/-- Four bytes put together into a word are its bytes again. -/
theorem bytes_of_append (b3 b2 b1 b0 : BitVec 8) :
    (b3 ++ b2 ++ b1 ++ b0).extractLsb' 0 8 = b0 ∧ (b3 ++ b2 ++ b1 ++ b0).extractLsb' 8 8 = b1 ∧
      (b3 ++ b2 ++ b1 ++ b0).extractLsb' 16 8 = b2 ∧ (b3 ++ b2 ++ b1 ++ b0).extractLsb' 24 8 = b3 := by
  simp (disch := omega) only [BitVec.extractLsb'_append_eq_of_le, BitVec.extractLsb'_append_eq_of_add_le]
  exact ⟨BitVec.extractLsb'_eq_self, BitVec.extractLsb'_eq_self, BitVec.extractLsb'_eq_self,
    BitVec.extractLsb'_eq_self⟩

/-- Settles O10: every field of CONFIG is below 256, as `D + F <= 32`, so a byte holds it. -/
theorem configWordFields : Obligations.ConfigWordFields := by
  refine ⟨fun s => ?_, rfl⟩
  obtain ⟨hD, hF, hW, hWS⟩ := bytes_of_append (.ofNat 8 s.config.WS) (.ofNat 8 s.config.W) (.ofNat 8 s.config.F)
    (.ofNat 8 s.config.D)
  have hb := s.config.bounds
  have hle := s.config.W_le
  have hscale : s.config.WS = 2 * s.config.W := rfl
  refine ⟨(congrArg _ hD).trans ?_, (congrArg _ hF).trans ?_, (congrArg _ hW).trans ?_, (congrArg _ hWS).trans ?_⟩
  all_goals
    rw [BitVec.toNat_ofNat, Nat.mod_eq_of_lt]
    omega

/-! STATUS. -/

/-- The one-bit fields of STATUS (R36). -/
theorem statusPort_bits (s : State) :
    s.statusPort.getLsbD 0 = s.status.eq ∧ s.statusPort.getLsbD 1 = s.status.lt ∧
      s.statusPort.getLsbD 2 = s.status.gt ∧ s.statusPort.getLsbD 8 = s.status.fault ∧
      s.statusPort.getLsbD 9 = s.busy := by
  simp only [State.statusPort, BitVec.getLsbD_append]
  simp

/-- The wider fields of STATUS: the reserved ones read 0, and CAUSE is the code of the cause (R36). -/
theorem statusPort_fields (s : State) :
    s.statusPort.extractLsb' 3 5 = 0 ∧ s.statusPort.extractLsb' 10 2 = 0 ∧
      s.statusPort.extractLsb' 12 4 = s.status.cause.code ∧ s.statusPort.extractLsb' 16 16 = 0 := by
  simp (disch := omega) only [State.statusPort, BitVec.extractLsb'_append_eq_of_le,
    BitVec.extractLsb'_append_eq_of_add_le]
  exact ⟨rfl, rfl, BitVec.extractLsb'_eq_self, rfl⟩

/-- The codes of R200 are 0 to 4. -/
theorem Cause.code_le (k : Cause) : k.code.toNat ≤ 4 := by
  cases k <;> decide

/-- The port bit BUSY is SEQ = BUSY (R42). -/
theorem busy_iff (s : State) : s.busy = true ↔ ∃ c n, s.seq = .busy c n := by
  unfold State.busy
  cases s.seq <;> simp

/-- Settles O11: the bits and the fields of the port word, each a lemma above. -/
theorem statusWordFields : Obligations.StatusWordFields := by
  intro s
  obtain ⟨heq, hlt, hgt, hfault, hbusy⟩ := statusPort_bits s
  obtain ⟨hlow, hmid, hcause, hhigh⟩ := statusPort_fields s
  refine ⟨heq, hlt, hgt, hlow, hfault, ?_, hmid, ?_, hcause, hhigh⟩
  · rw [hbusy, busy_iff]
  · rw [hcause]
    exact s.status.cause.code_le

/-! Reset. -/

/-- Settles O54: the fields of `State.resetOf`, whose STATUS is clear and whose SEQ is IDLE. -/
theorem resetStateValues : Obligations.ResetStateValues :=
  ⟨fun _ => ⟨rfl, rfl, statusPort_eq_zero _ rfl rfl, rfl, rfl, rfl, rfl⟩, rfl⟩

/-! The datapath. -/

/-- Settles O7: doubling `D + F` takes `resolve` one width up, but from 4 down, where 8 bits hold both. -/
theorem datapathWidthIsScratchWidth : Obligations.DatapathWidthIsScratchWidth := by
  intro c
  have hb := c.bounds
  have hW := resolve_cases (c.D + c.F)
  have hW2 := resolve_cases (2 * (c.D + c.F))
  refine ⟨rfl, fun h => ?_, fun h => ?_⟩
  · simp only [Config.WS, Config.W, Config.W2]
    omega
  · simp only [Config.W, Config.W2]
    omega

/-- The magnitude of a scaled word is at most `2^(W-1)`. -/
theorem abs_sint_le (c : Config) (a : BitVec c.W) : |sint a| ≤ 2 ^ (c.W - 1) := by
  obtain ⟨hl, hu⟩ := sint_range c a
  exact abs_le.2 ⟨hl, hu.le⟩

/-- The bound of the datapath is twice the square of the bound of the words (R7). -/
theorem two_pow_WS (c : Config) : (2 : ℤ) ^ (c.WS - 1) = 2 * (2 ^ (c.W - 1) * 2 ^ (c.W - 1)) := by
  have hW := c.W_pos
  rw [← pow_add, ← pow_succ']
  congr 1
  simp only [Config.WS]
  omega

/-- Settles O8: the product and the scaled dividend are at most `2^(2W-2)` in magnitude, half of the datapath's bound,
and half the divisor is less than what is left. -/
theorem datapathNeverOverflows : Obligations.DatapathNeverOverflows := by
  intro c a b
  set M : ℤ := 2 ^ (c.W - 1) with hM
  have hM2 : 2 ≤ M := le_self_pow₀ (by norm_num) (by have := c.W_cases; omega)
  have ha : |sint a| ≤ M := abs_sint_le c a
  have hb : |sint b| ≤ M := abs_sint_le c b
  have hF : |(2 : ℤ) ^ c.F| ≤ M := by
    rw [abs_of_pos (by positivity)]
    exact pow_le_pow_right₀ (by norm_num) (Nat.le_sub_one_of_lt c.F_lt_W)
  have hprod : |sint a * sint b| ≤ M * M := by
    rw [abs_mul]
    gcongr
  have hscaled : |sint a * 2 ^ c.F| ≤ M * M := by
    rw [abs_mul]
    gcongr
  have hhalf : |(sint b).tdiv 2| ≤ M := by
    refine le_trans ?_ hb
    rw [Int.abs_eq_natAbs, Int.abs_eq_natAbs, Int.natAbs_tdiv]
    exact_mod_cast Nat.div_le_self _ _
  have hroom : M + 1 ≤ M * M := by nlinarith
  rw [two_pow_WS, ← hM]
  obtain ⟨hpl, hpu⟩ := abs_le.1 hprod
  obtain ⟨hsl, hsu⟩ := abs_le.1 hscaled
  refine ⟨⟨?_, ?_⟩, ⟨?_, ?_⟩, ?_⟩ <;> linarith

end Sys2Proof.Machine

/-! PROOFS. What single commands do: NOP, LDF of what TOF gave, the flags, and the cause of a fault
(spec/40_construct_extract.md R100, R102, R104; spec/10_state.md R40; spec/60_exceptions.md R207). -/

namespace Sys2Proof.Machine

/-- Settles O12: NOP is `State.complete`, which writes SEQ alone. -/
theorem nopWritesNothing : Obligations.NopWritesNothing := fun _ _ => ⟨rfl, rfl⟩

/-! LDF of what TOF gave. -/

/-- The word TOF gives of a scaled integer scales back to it, which is in range (R102, R104). -/
theorem ldfScaled_f64Bits (c : Config) (a : BitVec c.W) : ldfScaled c (f64Bits (sint a) c.F) = some (sint a) := by
  have hback : truncRat (scaledValue c a * 2 ^ c.F) = sint a := by
    rw [scaledValue, div_mul_cancel₀ _ (by positivity), truncRat_intCast]
  refine (ldfScaled_eq_some_iff c _ _).2 ⟨_, f64Bits_real_scaledValue c a, ?_, hback⟩
  rw [hback]
  exact (exists_sint_eq_iff_inRange c _).1 ⟨a, rfl⟩

/-- Settles O18: LDF loads the word of the scaled integer, which is ACC again. -/
theorem tofThenLdfRestores : Obligations.TofThenLdfRestores := by
  intro s t o h
  cases (exec_tof s o).symm.trans h
  exact ⟨_, _, exec_ldf_of_some (ldfScaled_f64Bits s.config s.acc), BitVec.ofInt_toInt⟩

/-! The flags. -/

/-- Settles O33: each flag is the truth of its comparison, and `!=`, `<=` and `>=` follow by the order of the
integers. -/
theorem sixRelationsFromFlags : Obligations.SixRelationsFromFlags := by
  intro s t o h
  cases (exec_cmp s o).symm.trans h
  refine ⟨decide_eq_true_iff, ?_, decide_eq_true_iff, decide_eq_true_iff, ?_, ?_⟩
  · simp [Status.relNe, operandQ]
  · simp [Status.relLe, operandQ, le_iff_lt_or_eq]
  · simp only [Status.relGe, State.complete_status, State.compare_status, Bool.or_eq_true, decide_eq_true_eq, operandQ]
    omega

/-- Settles O34: a completed command but CMP keeps the flags, and a fault entry does not name them. -/
theorem onlyCmpWritesFlags : Obligations.OnlyCmpWritesFlags := by
  intro i s t h hcmp
  cases hf : faultOf s.config i with
  | none =>
    obtain ⟨_, _, _, _, _, _, _, hx, hkeep, -⟩ := exec_of_no_fault i s hf
    cases hx.symm.trans h
    exact hkeep hcmp
  | some k =>
    cases (exec_of_fault i s k hf).symm.trans h
    exact ⟨rfl, rfl, rfl⟩

/-! The cause of a fault. -/

/-- Settles O42: a command that leaves the unit FAULTED raised the fault of `faultOf`, which goes by the opcode. -/
theorem causeFixedByOpcode : Obligations.CauseFixedByOpcode := by
  intro i s t h hseq
  cases hf : faultOf s.config i with
  | none =>
    obtain ⟨_, _, _, _, _, _, _, hx, -⟩ := exec_of_no_fault i s hf
    cases hx.symm.trans h
    cases hseq
  | some k =>
    cases (exec_of_fault i s k hf).symm.trans h
    obtain ⟨o, rfl, rfl, -⟩ | ⟨o, rfl, rfl, -⟩ | ⟨o, rfl, rfl, -⟩ | ⟨o, rfl, rfl, -⟩ := faultOf_cases _ i k hf
    · exact .inl ⟨rfl, o, rfl⟩
    · exact .inr (.inl ⟨rfl, o, rfl⟩)
    · exact .inr (.inr ⟨rfl, o, .inl rfl⟩)
    · exact .inr (.inr ⟨rfl, o, .inr rfl⟩)

end Sys2Proof.Machine

/-! PROOFS. SIN and COS: availability, and the primitive commands one by one (spec/43_trig.md R180 to R184). -/

namespace Sys2Proof.Machine

/-! Availability. -/

/-- A constant `n * 2^F` whose leading one stands at bit `k` is representable iff that bit stays below the sign
(R181). -/
theorem inRange_scaled_iff (c : Config) {n : ℤ} {k : ℕ} (hl : 2 ^ k ≤ n) (hu : n < 2 ^ (k + 1)) :
    inRange c (n * 2 ^ c.F) ↔ k < c.W - 1 - c.F := by
  have hn : 0 ≤ n := le_trans (by positivity) hl
  have hsplit : (2 : ℤ) ^ (c.W - 1) = 2 ^ (c.W - 1 - c.F) * 2 ^ c.F := by
    rw [← pow_add, Nat.sub_add_cancel (Nat.le_sub_one_of_lt c.F_lt_W)]
  have hlow : -2 ^ (c.W - 1) ≤ n * 2 ^ c.F := (neg_nonpos.2 (by positivity)).trans (by positivity)
  rw [inRange, and_iff_right hlow, Int.le_sub_one_iff, hsplit, mul_lt_mul_iff_left₀ (by positivity)]
  constructor
  · exact fun h => (pow_lt_pow_iff_right₀ (by norm_num)).1 (hl.trans_lt h)
  · exact fun h => hu.trans_le (pow_le_pow_right₀ (by norm_num) h)

/-- SIN is available iff its largest constant is representable, and with it the smaller ones (R181). -/
theorem sinAvailable_iff_inRange (c : Config) :
    sinAvailable c = true ↔ ∀ n ∈ [6, 120, 5040], inRange c (n * 2 ^ c.F) := by
  have h6 := inRange_scaled_iff c (n := 6) (k := 2) (by norm_num) (by norm_num)
  have h120 := inRange_scaled_iff c (n := 120) (k := 6) (by norm_num) (by norm_num)
  have h5040 := inRange_scaled_iff c (n := 5040) (k := 12) (by norm_num) (by norm_num)
  simp only [List.forall_mem_cons, List.not_mem_nil, false_imp_iff, implies_true, and_true]
  rw [sinAvailable_iff, h6, h120, h5040]
  omega

/-- COS is available iff its largest constant is representable, and with it the smaller ones (R181). -/
theorem cosAvailable_iff_inRange (c : Config) :
    cosAvailable c = true ↔ ∀ n ∈ [1, 2, 24, 720], inRange c (n * 2 ^ c.F) := by
  have h1 := inRange_scaled_iff c (n := 1) (k := 0) (by norm_num) (by norm_num)
  have h2 := inRange_scaled_iff c (n := 2) (k := 1) (by norm_num) (by norm_num)
  have h24 := inRange_scaled_iff c (n := 24) (k := 4) (by norm_num) (by norm_num)
  have h720 := inRange_scaled_iff c (n := 720) (k := 9) (by norm_num) (by norm_num)
  simp only [List.forall_mem_cons, List.not_mem_nil, false_imp_iff, implies_true, and_true]
  rw [cosAvailable_iff, h1, h2, h24, h720]
  omega

/-- Settles O35: the conditions on the constants are the bounds on `W - 1 - F`, which a given W makes bounds on F. -/
theorem trigAvailability : Obligations.TrigAvailability := by
  intro c
  refine ⟨sinAvailable_iff_inRange c, cosAvailable_iff_inRange c, fun hW => ?_, fun hW => ?_, fun hW => ?_⟩
  · rw [sinAvailable_eq_false_iff, cosAvailable_eq_false_iff]
    omega
  all_goals
    rw [sinAvailable_iff, cosAvailable_iff]
    omega

/-! The primitive commands one by one. -/

/-- A representable constant other than 0 is no divisor 0 (R182). -/
theorem sint_seriesConst_ne_zero {c : Config} {n : ℤ} (h : inRange c (n * 2 ^ c.F)) (hn : n ≠ 0) :
    sint (seriesConst c n) ≠ 0 := by
  rw [seriesConst, sint_word_of_inRange h]
  exact mul_ne_zero hn (by positivity)

/-- Where the divisors are not 0, the host's program for SIN ends with the series in RES (R183). -/
theorem hostSine_eq (s : State) (x : BitVec s.config.W) (h6 : sint (seriesConst s.config 6) ≠ 0)
    (h120 : sint (seriesConst s.config 120) ≠ 0) (h5040 : sint (seriesConst s.config 5040) ≠ 0) :
    s.hostSine (sext64 x) = sext64 (sinSeries s.config x) := by
  simp only [State.hostSine, after_ldq, holding_after_ldq, holding_after_mul, State.holding_res,
    holding_after_div _ _ _ _ h6, holding_after_div _ _ _ _ h120, holding_after_div _ _ _ _ h5040,
    holding_after_add, holding_after_sub, sinSeries_eq]

/-- Where the divisors are not 0, the host's program for COS ends with the series in RES (R184). -/
theorem hostCosine_eq (s : State) (x : BitVec s.config.W) (h2 : sint (seriesConst s.config 2) ≠ 0)
    (h24 : sint (seriesConst s.config 24) ≠ 0) (h720 : sint (seriesConst s.config 720) ≠ 0) :
    s.hostCosine (sext64 x) = sext64 (cosSeries s.config x) := by
  simp only [State.hostCosine, after_ldq, holding_after_ldq, holding_after_mul, State.holding_res,
    holding_after_div _ _ _ _ h2, holding_after_div _ _ _ _ h24, holding_after_div _ _ _ _ h720,
    holding_after_add, holding_after_sub, cosSeries_eq]

/-- Settles O39: the divisors are representable constants, so the host's program gives the series, as SIN does. -/
theorem sinIsItsPrimitiveCommands : Obligations.SinIsItsPrimitiveCommands := by
  intro s o ha
  have hk := fun n hn => sint_seriesConst_ne_zero ((sinAvailable_iff_inRange s.config).1 ha n hn)
  rw [hostSine_eq s s.acc (hk 6 (by simp) (by norm_num)) (hk 120 (by simp) (by norm_num))
    (hk 5040 (by simp) (by norm_num)), State.after, exec_sin_of_available o ha]
  exact ⟨rfl, (sint_sext64 ..).symm⟩

/-- Settles O40: the divisors are representable constants, so the host's program gives the series, as COS does. -/
theorem cosIsItsPrimitiveCommands : Obligations.CosIsItsPrimitiveCommands := by
  intro s o ha
  have hk := fun n hn => sint_seriesConst_ne_zero ((cosAvailable_iff_inRange s.config).1 ha n hn)
  rw [hostCosine_eq s s.acc (hk 2 (by simp) (by norm_num)) (hk 24 (by simp) (by norm_num))
    (hk 720 (by simp) (by norm_num)), State.after, exec_cos_of_available o ha]
  exact ⟨rfl, (sint_sext64 ..).symm⟩

end Sys2Proof.Machine

/-! PROOFS. Laws of the arithmetic (spec/41_arithmetic.md R137). -/

namespace Sys2Proof.Machine

/-! ADD, SUB, NEG and MUL on words: wrapped integer arithmetic is the ring of words. -/

theorem addF_eq_add (c : Config) (a b : BitVec c.W) : addF c a b = a + b :=
  (BitVec.ofInt_add _ _).trans (by rw [BitVec.ofInt_toInt, BitVec.ofInt_toInt])

theorem subF_eq_sub (c : Config) (a b : BitVec c.W) : subF c a b = a - b := by
  rw [subF, Int.sub_eq_add_neg, word, BitVec.ofInt_add, BitVec.ofInt_neg, BitVec.ofInt_toInt, BitVec.ofInt_toInt,
    BitVec.sub_eq_add_neg]

theorem mulF_comm (c : Config) (a b : BitVec c.W) : mulF c a b = mulF c b a := by
  rw [mulF, mulF, mulExact, mulExact, mul_comm]

/-- Settles O26: the words form a commutative ring under ADD and NEG, and the exact product commutes. -/
theorem addSubMulLaws : Obligations.AddSubMulLaws := by
  intro c x y z
  refine ⟨?_, ?_, ?_, ?_, mulF_comm c x y⟩
  · rw [addF_eq_add, addF_eq_add, BitVec.add_comm]
  · rw [addF_eq_add, addF_eq_add, addF_eq_add, addF_eq_add, BitVec.add_assoc]
  · rw [addF_eq_add, negF_eq_neg]
    exact BitVec.add_right_neg x
  · rw [subF_eq_sub, addF_eq_add, negF_eq_neg, BitVec.sub_eq_add_neg]

/-! DIV of a product. With `S = 2^F` and `p` the product after MUL, DIV rounds `p S / b`, which is off from `a` by
what MUL cut off, less than `S / |b| <= 1`, and always on the same side. -/

/-- Rounding to the nearest moves a number by at most one half. -/
theorem abs_roundAway_sub_le (q : ℚ) : |(roundAway q : ℚ) - q| ≤ 1 / 2 := by
  rw [abs_sub_le_iff]
  rcases le_or_gt 0 q with h | h
  · rw [roundAway_of_nonneg h]
    constructor <;> linarith [Int.floor_le (q + 1 / 2), Int.lt_floor_add_one (q + 1 / 2)]
  · rw [roundAway_of_neg h]
    constructor <;> linarith [Int.le_ceil (q - 1 / 2), Int.ceil_lt_add_one (q - 1 / 2)]

/-- Rounding to the nearest keeps an integer upper bound. -/
theorem roundAway_le {q : ℚ} {n : ℤ} (h : q ≤ n) : roundAway q ≤ n := by
  have hr := (abs_sub_le_iff.1 (abs_roundAway_sub_le q)).1
  have hlt : (roundAway q : ℚ) < n + 1 := by linarith
  exact Int.lt_add_one_iff.1 (by exact_mod_cast hlt)

/-- Rounding to the nearest keeps an integer lower bound. -/
theorem le_roundAway {q : ℚ} {n : ℤ} (h : (n : ℚ) ≤ q) : n ≤ roundAway q := by
  have hr := (abs_sub_le_iff.1 (abs_roundAway_sub_le q)).2
  have hlt : (n : ℚ) < roundAway q + 1 := by linarith
  exact Int.lt_add_one_iff.1 (by exact_mod_cast hlt)

/-- What MUL cuts off is less than one unit of the product (R134). -/
theorem mulExact_mul_scale (c : Config) (a b : ℤ) :
    mulExact c a b * 2 ^ c.F ≤ a * b ∧ a * b < mulExact c a b * 2 ^ c.F + 2 ^ c.F := by
  have hS : (0 : ℤ) < 2 ^ c.F := by positivity
  rw [mulExact, asr, floorDiv, Int.fdiv_eq_ediv_of_nonneg _ hS.le]
  have hdiv := Int.emod_add_ediv_mul (a * b) (2 ^ c.F)
  have hl := Int.emod_nonneg (a * b) hS.ne'
  have hu := Int.emod_lt_of_pos (a * b) hS
  constructor <;> linarith

/-- For a positive divisor the quotient of the cut product lies within one unit below `a`. -/
theorem quotient_of_pos {a b p S : ℤ} (hb : S ≤ b) (hS : 0 < S) (hl : p * S ≤ a * b) (hu : a * b < p * S + S) :
    (a : ℚ) - 1 < p * S / b ∧ (p * S / b : ℚ) ≤ a := by
  have hbq : (0 : ℚ) < b := by exact_mod_cast hS.trans_le hb
  rw [lt_div_iff₀ hbq, div_le_iff₀ hbq]
  constructor
  · have h : (a - 1) * b < p * S := by linarith
    exact_mod_cast h
  · exact_mod_cast hl

/-- For a negative divisor it lies within one unit above `a`. -/
theorem quotient_of_neg {a b p S : ℤ} (hb : b ≤ -S) (hS : 0 < S) (hl : p * S ≤ a * b) (hu : a * b < p * S + S) :
    (a : ℚ) ≤ p * S / b ∧ (p * S / b : ℚ) < a + 1 := by
  have hbq : (b : ℚ) < 0 := by exact_mod_cast hb.trans_lt (neg_neg_of_pos hS)
  rw [le_div_iff_of_neg hbq, div_lt_iff_of_neg hbq]
  constructor
  · exact_mod_cast hl
  · have h : (a + 1) * b < p * S := by linarith
    exact_mod_cast h

/-- For a positive divisor, DIV of the product gives `a` or one unit less, and does not wrap. -/
theorem roundAway_quotient_of_pos {c : Config} {a b p r : ℤ} (hr : r = roundAway ((p * 2 ^ c.F : ℚ) / b))
    (ha : inRange c a) (hp : inRange c p) (hb : 2 ^ c.F ≤ b) (hl : p * 2 ^ c.F ≤ a * b)
    (hu : a * b < p * 2 ^ c.F + 2 ^ c.F) : inRange c r ∧ a - 1 ≤ r ∧ r ≤ a := by
  subst hr
  have hS : (0 : ℤ) < 2 ^ c.F := by positivity
  have hbq : (0 : ℚ) < b := by exact_mod_cast hS.trans_le hb
  have hq := quotient_of_pos hb hS hl hu
  push_cast at hq
  have hmin : ((-2 ^ (c.W - 1) : ℤ) : ℚ) ≤ p * 2 ^ c.F / b := by
    have h : -2 ^ (c.W - 1) * b ≤ p * 2 ^ c.F := by
      nlinarith [hp.1, pow_pos (zero_lt_two (α := ℤ)) (c.W - 1)]
    rw [le_div_iff₀ hbq]
    exact_mod_cast h
  have hle := roundAway_le hq.2
  exact ⟨⟨le_roundAway hmin, hle.trans ha.2⟩, le_roundAway (by push_cast; exact hq.1.le), hle⟩

/-- The corner of a negative divisor: where `a` is the maximum and MUL does not wrap, the divisor stands
for -1. -/
theorem eq_neg_scale_of_max {c : Config} {b p : ℤ} (hb : b ≤ -2 ^ c.F) (hmin : -2 ^ (c.W - 1) ≤ b)
    (hp : -2 ^ (c.W - 1) ≤ p) (hl : p * 2 ^ c.F ≤ (2 ^ (c.W - 1) - 1) * b) : b = -2 ^ c.F := by
  have hM : (2 : ℤ) ^ 2 ≤ 2 ^ (c.W - 1) := pow_le_pow_right₀ (by norm_num) (by have := c.W_cases; omega)
  by_contra hne
  have hlt : (2 : ℤ) ^ c.F < 2 ^ (c.W - 1) := by omega
  have hF : c.F < c.W - 1 := (pow_lt_pow_iff_right₀ (by norm_num)).1 hlt
  have hhalf : (2 : ℤ) ^ (c.F + 1) ≤ 2 ^ (c.W - 1) := pow_le_pow_right₀ (by norm_num) hF
  rw [pow_succ] at hhalf
  have hS : (0 : ℤ) < 2 ^ c.F := by positivity
  have hb' : b ≤ -(2 ^ c.F + 1) := by omega
  have hfar : (2 ^ (c.W - 1) - 1) * b ≤ (2 ^ (c.W - 1) - 1) * -(2 ^ c.F + 1) :=
    mul_le_mul_of_nonneg_left hb' (by omega)
  have hnear : -2 ^ (c.W - 1) * 2 ^ c.F ≤ p * 2 ^ c.F := mul_le_mul_of_nonneg_right hp hS.le
  have hM' : (2 : ℤ) ^ (c.W - 1) ≤ 2 ^ c.F + 1 := by linarith
  omega

/-- For a negative divisor, DIV of the product gives `a` or one unit more, and does not wrap. -/
theorem roundAway_quotient_of_neg {c : Config} {a b p r : ℤ} (hr : r = roundAway ((p * 2 ^ c.F : ℚ) / b))
    (ha : inRange c a) (hp : inRange c p) (hb : b ≤ -2 ^ c.F) (hmin : -2 ^ (c.W - 1) ≤ b)
    (hl : p * 2 ^ c.F ≤ a * b) (hu : a * b < p * 2 ^ c.F + 2 ^ c.F) : inRange c r ∧ a ≤ r ∧ r ≤ a + 1 := by
  subst hr
  have hS : (0 : ℤ) < 2 ^ c.F := by positivity
  have hq := quotient_of_neg hb hS hl hu
  push_cast at hq
  have hge := le_roundAway hq.1
  have hle := roundAway_le (n := a + 1) (by push_cast; exact hq.2.le)
  refine ⟨⟨ha.1.trans hge, ?_⟩, hge, hle⟩
  rcases ha.2.lt_or_eq with hlt | rfl
  · omega
  · obtain rfl := eq_neg_scale_of_max hb hmin hp.1 hl
    obtain rfl : p = -(2 ^ (c.W - 1) - 1) := by nlinarith
    refine roundAway_le (le_of_eq ?_)
    have hSq : (2 : ℚ) ^ c.F ≠ 0 := by positivity
    push_cast
    field_simp

/-- Settles O27: MUL does not wrap, so DIV rounds the quotient of the product it gave, by the sign of the divisor. -/
theorem divNearlyInvertsMul : Obligations.DivNearlyInvertsMul := by
  intro c a b hscale hrange
  have hp : inRange c (mulExact c (sint a) (sint b)) := by rwa [mulExact_eq_floor]
  have hS : (0 : ℤ) < 2 ^ c.F := by positivity
  have hne : sint b ≠ 0 := abs_pos.1 (hS.trans_le hscale)
  obtain ⟨hl, hu⟩ := mulExact_mul_scale c (sint a) (sint b)
  have ha : inRange c (sint a) := (exists_sint_eq_iff_inRange c _).1 ⟨a, rfl⟩
  have hmul : sint (mulF c a b) = mulExact c (sint a) (sint b) := sint_word_of_inRange hp
  rw [divF, hmul, divExact_eq_roundAway c _ hne]
  rcases le_abs.1 hscale with hb | hb
  · obtain ⟨hr, hlow, hup⟩ := roundAway_quotient_of_pos rfl ha hp hb hl hu
    rw [sint_word_of_inRange hr]
    omega
  · obtain ⟨hr, hlow, hup⟩ := roundAway_quotient_of_neg rfl ha hp (le_neg.1 hb) (sint_range c b).1 hl hu
    rw [sint_word_of_inRange hr]
    omega

end Sys2Proof.Machine
